-- ==== Sys2Proof/Word.lean ====
section
/-! DEFINITION. The word types of the machine: the byte of a register or memory cell, the 16-bit word of an instruction,
of PC, of I and of a stack slot, and the register number. -/

namespace Sys2Proof

/-- A register or memory cell: 8 bits, unsigned (R11, R40). -/
abbrev Byte := BitVec 8

/-- An instruction word, PC, I or a stack slot: 16 bits, unsigned (R61, R13, R14, R16). -/
abbrev Word := BitVec 16

/-- A register number 0 to 15, as selected by the `x` or `y` field (R11, R62). -/
abbrev Reg := Fin 16

end Sys2Proof
end

