-- ==== Sys2Proof/Syntax.lean ====
section
/-! DEFINITION. The instruction set: one constructor per row of spec/opcode_table.json (30_encoding.md R66), with the
operand fields of R62. The constructor names follow the mnemonic column of R66; the docstrings give the source's pattern, which
is the row's name. -/

namespace Sys2Proof

/-- The 34 instructions (R66). `x` and `y` are register numbers, `kk` is the 8-bit immediate, `nnn` the 12-bit address, `n` the
4-bit row count. `8xy6` and `8xyE` keep their free `y` field (R68), so that no bit of a word is lost. -/
inductive Instr where
  /-- `00E0` CLS (R140). -/
  | cls
  /-- `00EE` RET (R80). -/
  | ret
  /-- `1nnn` JP nnn (R81). -/
  | jp (nnn : BitVec 12)
  /-- `2nnn` CALL nnn (R82). -/
  | call (nnn : BitVec 12)
  /-- `3xkk` SE Vx, kk (R83). -/
  | seImm (x : Reg) (kk : Byte)
  /-- `4xkk` SNE Vx, kk (R84). -/
  | sneImm (x : Reg) (kk : Byte)
  /-- `5xy0` SE Vx, Vy (R85). -/
  | seReg (x y : Reg)
  /-- `6xkk` LD Vx, kk (R100). -/
  | ldImm (x : Reg) (kk : Byte)
  /-- `7xkk` ADD Vx, kk (R101). -/
  | addImm (x : Reg) (kk : Byte)
  /-- `8xy0` LD Vx, Vy (R102). -/
  | ldReg (x y : Reg)
  /-- `8xy1` OR Vx, Vy (R103). -/
  | orReg (x y : Reg)
  /-- `8xy2` AND Vx, Vy (R104). -/
  | andReg (x y : Reg)
  /-- `8xy3` XOR Vx, Vy (R105). -/
  | xorReg (x y : Reg)
  /-- `8xy4` ADD Vx, Vy (R106). -/
  | addReg (x y : Reg)
  /-- `8xy5` SUB Vx, Vy (R107). -/
  | subReg (x y : Reg)
  /-- `8xy6` SHR Vx (R108). -/
  | shr (x y : Reg)
  /-- `8xy7` SUBN Vx, Vy (R109). -/
  | subnReg (x y : Reg)
  /-- `8xyE` SHL Vx (R110). -/
  | shl (x y : Reg)
  /-- `9xy0` SNE Vx, Vy (R86). -/
  | sneReg (x y : Reg)
  /-- `Annn` LD I, nnn (R120). -/
  | ldI (nnn : BitVec 12)
  /-- `Bnnn` JP V0, nnn (R87). -/
  | jpV0 (nnn : BitVec 12)
  /-- `Cxkk` RND Vx, kk (R150). -/
  | rnd (x : Reg) (kk : Byte)
  /-- `Dxyn` DRW Vx, Vy, n (R141). -/
  | drw (x y : Reg) (n : BitVec 4)
  /-- `Ex9E` SKP Vx (R151). -/
  | skp (x : Reg)
  /-- `ExA1` SKNP Vx (R152). -/
  | sknp (x : Reg)
  /-- `Fx07` LD Vx, DT (R153). -/
  | ldVxDt (x : Reg)
  /-- `Fx0A` LD Vx, K (R154). -/
  | ldVxK (x : Reg)
  /-- `Fx15` LD DT, Vx (R155). -/
  | ldDtVx (x : Reg)
  /-- `Fx18` LD ST, Vx (R156). -/
  | ldStVx (x : Reg)
  /-- `Fx1E` ADD I, Vx (R121). -/
  | addI (x : Reg)
  /-- `Fx29` LD F, Vx (R122). -/
  | ldF (x : Reg)
  /-- `Fx33` LD B, Vx (R123). -/
  | ldB (x : Reg)
  /-- `Fx55` LD [I], Vx (R124). -/
  | storeRegs (x : Reg)
  /-- `Fx65` LD Vx, [I] (R125). -/
  | loadRegs (x : Reg)
  deriving DecidableEq, Repr

end Sys2Proof
end

