-- ==== Sys2Proof/WellFormed.lean ====
section
/-! DEFINITION. The checks on what is given to the machine: an operand fits its field (R62, R63), an instruction's operands
all do, and a ROM is no longer than the program area (R202). The operand types of `Instr` already hold the bounds, so every `Instr`
passes (`Laws/PerInstr.lean`); the check is what refuses a raw number. -/

namespace Sys2Proof

/-- A field of `width` bits holds the unsigned number `value` (R62, R63). -/
def fieldFits (width value : Nat) : Bool := value < 2 ^ width

/-- The operand fields of an instruction with their widths in bits (R62, R64). -/
def Instr.operands : Instr → List (Nat × Nat)
  | .cls | .ret => []
  | .jp nnn | .call nnn | .ldI nnn | .jpV0 nnn => [(12, nnn.toNat)]
  | .seImm x kk | .sneImm x kk | .ldImm x kk | .addImm x kk | .rnd x kk => [(4, x.val), (8, kk.toNat)]
  | .seReg x y | .sneReg x y | .ldReg x y | .orReg x y | .andReg x y | .xorReg x y => [(4, x.val), (4, y.val)]
  | .addReg x y | .subReg x y | .shr x y | .subnReg x y | .shl x y => [(4, x.val), (4, y.val)]
  | .drw x y n => [(4, x.val), (4, y.val), (4, n.toNat)]
  | .skp x | .sknp x | .ldVxDt x | .ldVxK x | .ldDtVx x | .ldStVx x => [(4, x.val)]
  | .addI x | .ldF x | .ldB x | .storeRegs x | .loadRegs x => [(4, x.val)]

/-- A well-formed instruction: every operand fits its field. -/
def Instr.wellFormed (i : Instr) : Bool := i.operands.all fun o => fieldFits o.1 o.2

/-- MAX_ROM: the largest program in bytes, 4096 minus 0x200 (R4). -/
def maxRom : Nat := 3584

/-- A ROM that LOAD accepts: at most 3584 bytes (R201, R202). -/
def romFits (bytes : List Byte) : Bool := bytes.length ≤ maxRom

end Sys2Proof
end

