-- ==== Sys2Proof/Decode.lean ====
section
/-! DEFINITION. The decoder and the encoder, written from 30_encoding.md: the fields of R62, the dispatch of R65, the opcode map of
R66, the illegal words of R67, the formats of R64. Decoding depends on no state (R65). -/

namespace Sys2Proof

/-- What the decoder reads: an instruction, or a rejection by name. -/
inductive Decoded where
  /-- The word selects a row of the opcode map (R66). -/
  | instr (i : Instr)
  /-- The word matches no row: the decode raises UnknownOpcode(w) (R67). -/
  | unknownOpcode (w : Word)
  /-- Fewer than the two bytes of an instruction were given (R61). -/
  | truncated (bytes : Nat)
  deriving DecidableEq, Repr

/-- The family selector, bits 15 to 12 (R62). -/
def fieldOp (w : Word) : Nat := (w.extractLsb' 12 4).toNat

/-- Field `x`, bits 11 to 8 (R62). -/
def fieldX (w : Word) : Reg := ⟨(w.extractLsb' 8 4).toNat, (w.extractLsb' 8 4).isLt⟩

/-- Field `y`, bits 7 to 4 (R62). -/
def fieldY (w : Word) : Reg := ⟨(w.extractLsb' 4 4).toNat, (w.extractLsb' 4 4).isLt⟩

/-- Field `n`, bits 3 to 0 (R62). -/
def fieldN (w : Word) : BitVec 4 := w.extractLsb' 0 4

/-- Field `kk`, bits 7 to 0 (R62). -/
def fieldKk (w : Word) : Byte := w.extractLsb' 0 8

/-- Field `nnn`, bits 11 to 0 (R62). -/
def fieldNnn (w : Word) : BitVec 12 := w.extractLsb' 0 12

/-- Family 0 is decoded on the whole word (R65). -/
def decodeFamily0 (w : Word) : Decoded :=
  if w = 0x00E0 then .instr .cls
  else if w = 0x00EE then .instr .ret
  else .unknownOpcode w

/-- Family 8 is decoded on `n` (R65). -/
def decodeFamily8 (w : Word) : Decoded :=
  match (fieldN w).toNat with
  | 0x0 => .instr (.ldReg (fieldX w) (fieldY w))
  | 0x1 => .instr (.orReg (fieldX w) (fieldY w))
  | 0x2 => .instr (.andReg (fieldX w) (fieldY w))
  | 0x3 => .instr (.xorReg (fieldX w) (fieldY w))
  | 0x4 => .instr (.addReg (fieldX w) (fieldY w))
  | 0x5 => .instr (.subReg (fieldX w) (fieldY w))
  | 0x6 => .instr (.shr (fieldX w) (fieldY w))
  | 0x7 => .instr (.subnReg (fieldX w) (fieldY w))
  | 0xE => .instr (.shl (fieldX w) (fieldY w))
  | _ => .unknownOpcode w

/-- Families 5 and 9 are decoded on `n`, which must be 0 (R65). -/
def decodeXy0 (w : Word) (i : Reg → Reg → Instr) : Decoded :=
  if fieldN w = 0 then .instr (i (fieldX w) (fieldY w)) else .unknownOpcode w

/-- Family E is decoded on `kk` (R65). -/
def decodeFamilyE (w : Word) : Decoded :=
  match (fieldKk w).toNat with
  | 0x9E => .instr (.skp (fieldX w))
  | 0xA1 => .instr (.sknp (fieldX w))
  | _ => .unknownOpcode w

/-- Family F is decoded on `kk` (R65). -/
def decodeFamilyF (w : Word) : Decoded :=
  match (fieldKk w).toNat with
  | 0x07 => .instr (.ldVxDt (fieldX w))
  | 0x0A => .instr (.ldVxK (fieldX w))
  | 0x15 => .instr (.ldDtVx (fieldX w))
  | 0x18 => .instr (.ldStVx (fieldX w))
  | 0x1E => .instr (.addI (fieldX w))
  | 0x29 => .instr (.ldF (fieldX w))
  | 0x33 => .instr (.ldB (fieldX w))
  | 0x55 => .instr (.storeRegs (fieldX w))
  | 0x65 => .instr (.loadRegs (fieldX w))
  | _ => .unknownOpcode w

/-- Decode one instruction word: first on `op`, then inside the family on the bits it fixes (R65, R66, R67). UNVERIFIED for the
words of families 0, 5, 9 and E that the spec rejects by its own decision D4 (log 12). -/
def decodeWord (w : Word) : Decoded :=
  match fieldOp w with
  | 0x0 => decodeFamily0 w
  | 0x1 => .instr (.jp (fieldNnn w))
  | 0x2 => .instr (.call (fieldNnn w))
  | 0x3 => .instr (.seImm (fieldX w) (fieldKk w))
  | 0x4 => .instr (.sneImm (fieldX w) (fieldKk w))
  | 0x5 => decodeXy0 w .seReg
  | 0x6 => .instr (.ldImm (fieldX w) (fieldKk w))
  | 0x7 => .instr (.addImm (fieldX w) (fieldKk w))
  | 0x8 => decodeFamily8 w
  | 0x9 => decodeXy0 w .sneReg
  | 0xA => .instr (.ldI (fieldNnn w))
  | 0xB => .instr (.jpV0 (fieldNnn w))
  | 0xC => .instr (.rnd (fieldX w) (fieldKk w))
  | 0xD => .instr (.drw (fieldX w) (fieldY w) (fieldN w))
  | 0xE => decodeFamilyE w
  | 0xF => decodeFamilyF w
  | _ => .unknownOpcode w

/-- The instruction word of two consecutive bytes: `MEM[a] << 8 | MEM[a + 1]`, the first byte high (R44, R45). -/
def wordOfBytes (hi lo : Byte) : Word := hi ++ lo

/-- The byte at the lower address: bits 15 to 8 (R45). -/
def highByte (w : Word) : Byte := w.extractLsb' 8 8

/-- The byte at the higher address: bits 7 to 0 (R45). -/
def lowByte (w : Word) : Byte := w.extractLsb' 0 8

/-- Decode the instruction at the head of a list of bytes. Its length is always 2 (R61), so what follows it is `bytes.drop 2`. -/
def decodeBytes : List Byte → Decoded
  | hi :: lo :: _ => decodeWord (wordOfBytes hi lo)
  | bytes => .truncated bytes.length

/-- The instruction word whose bits are the `nbits` bits of `w` as the opcode table numbers them, the bits above them 0. -/
def tableWord (nbits w : Nat) : Word := BitVec.ofNat 16 (w % 2 ^ nbits)

/-- The instruction the decoder reads from a table word laid out as the hardware stores it, high byte first (R45). -/
def decodeTableWord (nbits w : Nat) : Option Instr :=
  match decodeBytes [highByte (tableWord nbits w), lowByte (tableWord nbits w)] with
  | .instr i => some i
  | _ => none

/-! ## The encoder -/

/-- Format NNN: `op`, then the 12-bit address (R64). -/
def formatNnn (op : Nat) (nnn : BitVec 12) : Word := BitVec.ofNat 16 (op * 4096 + nnn.toNat)

/-- Format XKK: `op`, `x`, then the 8-bit immediate (R64). -/
def formatXkk (op : Nat) (x : Reg) (kk : Byte) : Word := BitVec.ofNat 16 (op * 4096 + x.val * 256 + kk.toNat)

/-- Format XY: `op`, `x`, `y`, then the fixed function digit (R64). -/
def formatXy (op : Nat) (x y : Reg) (f : Nat) : Word := BitVec.ofNat 16 (op * 4096 + x.val * 256 + y.val * 16 + f)

/-- Format XYN: `op`, `x`, `y`, then the row count (R64). -/
def formatXyn (op : Nat) (x y : Reg) (n : BitVec 4) : Word :=
  BitVec.ofNat 16 (op * 4096 + x.val * 256 + y.val * 16 + n.toNat)

/-- Format X: `op`, `x`, then the fixed function byte (R64). -/
def formatX (op : Nat) (x : Reg) (ff : Nat) : Word := BitVec.ofNat 16 (op * 4096 + x.val * 256 + ff)

/-- The word of an instruction (R64, R66). -/
def encode : Instr → Word
  | .cls => 0x00E0
  | .ret => 0x00EE
  | .jp nnn => formatNnn 0x1 nnn
  | .call nnn => formatNnn 0x2 nnn
  | .seImm x kk => formatXkk 0x3 x kk
  | .sneImm x kk => formatXkk 0x4 x kk
  | .seReg x y => formatXy 0x5 x y 0x0
  | .ldImm x kk => formatXkk 0x6 x kk
  | .addImm x kk => formatXkk 0x7 x kk
  | .ldReg x y => formatXy 0x8 x y 0x0
  | .orReg x y => formatXy 0x8 x y 0x1
  | .andReg x y => formatXy 0x8 x y 0x2
  | .xorReg x y => formatXy 0x8 x y 0x3
  | .addReg x y => formatXy 0x8 x y 0x4
  | .subReg x y => formatXy 0x8 x y 0x5
  | .shr x y => formatXy 0x8 x y 0x6
  | .subnReg x y => formatXy 0x8 x y 0x7
  | .shl x y => formatXy 0x8 x y 0xE
  | .sneReg x y => formatXy 0x9 x y 0x0
  | .ldI nnn => formatNnn 0xA nnn
  | .jpV0 nnn => formatNnn 0xB nnn
  | .rnd x kk => formatXkk 0xC x kk
  | .drw x y n => formatXyn 0xD x y n
  | .skp x => formatX 0xE x 0x9E
  | .sknp x => formatX 0xE x 0xA1
  | .ldVxDt x => formatX 0xF x 0x07
  | .ldVxK x => formatX 0xF x 0x0A
  | .ldDtVx x => formatX 0xF x 0x15
  | .ldStVx x => formatX 0xF x 0x18
  | .addI x => formatX 0xF x 0x1E
  | .ldF x => formatX 0xF x 0x29
  | .ldB x => formatX 0xF x 0x33
  | .storeRegs x => formatX 0xF x 0x55
  | .loadRegs x => formatX 0xF x 0x65

/-- The bytes of an instruction in memory order, high byte first (R45, R61). -/
def encodeBytes (i : Instr) : List Byte := [highByte (encode i), lowByte (encode i)]

/-! ## The opcode map as data -/

/-- A row of the opcode map: a word `w` selects it when `w &&& mask = value` (R66). -/
structure OpcodeRow where
  /-- The source's pattern, the row's name. -/
  name : String
  /-- The fixed bits. -/
  mask : Word
  /-- Their values (the column 'match'). -/
  value : Word
  deriving DecidableEq, Repr

/-- The row of R66 that an instruction stands for. -/
def Instr.row : Instr → OpcodeRow
  | .cls => ⟨"00E0", 0xFFFF, 0x00E0⟩
  | .ret => ⟨"00EE", 0xFFFF, 0x00EE⟩
  | .jp _ => ⟨"1nnn", 0xF000, 0x1000⟩
  | .call _ => ⟨"2nnn", 0xF000, 0x2000⟩
  | .seImm _ _ => ⟨"3xkk", 0xF000, 0x3000⟩
  | .sneImm _ _ => ⟨"4xkk", 0xF000, 0x4000⟩
  | .seReg _ _ => ⟨"5xy0", 0xF00F, 0x5000⟩
  | .ldImm _ _ => ⟨"6xkk", 0xF000, 0x6000⟩
  | .addImm _ _ => ⟨"7xkk", 0xF000, 0x7000⟩
  | .ldReg _ _ => ⟨"8xy0", 0xF00F, 0x8000⟩
  | .orReg _ _ => ⟨"8xy1", 0xF00F, 0x8001⟩
  | .andReg _ _ => ⟨"8xy2", 0xF00F, 0x8002⟩
  | .xorReg _ _ => ⟨"8xy3", 0xF00F, 0x8003⟩
  | .addReg _ _ => ⟨"8xy4", 0xF00F, 0x8004⟩
  | .subReg _ _ => ⟨"8xy5", 0xF00F, 0x8005⟩
  | .shr _ _ => ⟨"8xy6", 0xF00F, 0x8006⟩
  | .subnReg _ _ => ⟨"8xy7", 0xF00F, 0x8007⟩
  | .shl _ _ => ⟨"8xyE", 0xF00F, 0x800E⟩
  | .sneReg _ _ => ⟨"9xy0", 0xF00F, 0x9000⟩
  | .ldI _ => ⟨"Annn", 0xF000, 0xA000⟩
  | .jpV0 _ => ⟨"Bnnn", 0xF000, 0xB000⟩
  | .rnd _ _ => ⟨"Cxkk", 0xF000, 0xC000⟩
  | .drw _ _ _ => ⟨"Dxyn", 0xF000, 0xD000⟩
  | .skp _ => ⟨"Ex9E", 0xF0FF, 0xE09E⟩
  | .sknp _ => ⟨"ExA1", 0xF0FF, 0xE0A1⟩
  | .ldVxDt _ => ⟨"Fx07", 0xF0FF, 0xF007⟩
  | .ldVxK _ => ⟨"Fx0A", 0xF0FF, 0xF00A⟩
  | .ldDtVx _ => ⟨"Fx15", 0xF0FF, 0xF015⟩
  | .ldStVx _ => ⟨"Fx18", 0xF0FF, 0xF018⟩
  | .addI _ => ⟨"Fx1E", 0xF0FF, 0xF01E⟩
  | .ldF _ => ⟨"Fx29", 0xF0FF, 0xF029⟩
  | .ldB _ => ⟨"Fx33", 0xF0FF, 0xF033⟩
  | .storeRegs _ => ⟨"Fx55", 0xF0FF, 0xF055⟩
  | .loadRegs _ => ⟨"Fx65", 0xF0FF, 0xF065⟩

/-- One instruction of every row, in the table's order. -/
def oneOfEach : List Instr :=
  [.cls, .ret, .jp 0, .call 0, .seImm 0 0, .sneImm 0 0, .seReg 0 0, .ldImm 0 0, .addImm 0 0] ++
  [.ldReg 0 0, .orReg 0 0, .andReg 0 0, .xorReg 0 0, .addReg 0 0, .subReg 0 0, .shr 0 0, .subnReg 0 0, .shl 0 0] ++
  [.sneReg 0 0, .ldI 0, .jpV0 0, .rnd 0 0, .drw 0 0 0, .skp 0, .sknp 0] ++
  [.ldVxDt 0, .ldVxK 0, .ldDtVx 0, .ldStVx 0, .addI 0, .ldF 0, .ldB 0, .storeRegs 0, .loadRegs 0]

/-- The opcode map: the 34 rows of R66. -/
def opcodeTable : List OpcodeRow := oneOfEach.map Instr.row

/-- A word selects a row (R66). -/
def OpcodeRow.selects (r : OpcodeRow) (w : Word) : Bool := w &&& r.mask = r.value

end Sys2Proof
end

