-- ==== Sys2Proof/Config.lean ====
section
/-! DEFINITION. What one implementation fixes: the parameters the spec leaves open and names (00_scope.md R4), at the
values it decides, and the one value that stays free (the random byte). -/

namespace Sys2Proof

/-- What `Ex9E` and `ExA1` do when Vx is above 15: the three values of KEY_INDEX_POLICY (R157, D8). -/
inductive KeyIndexPolicy where
  /-- Raise OutOfBounds(Key, Vx). -/
  | fault
  /-- Use Vx mod 16. -/
  | mask
  /-- Treat the key as not pressed. -/
  | notPressed
  deriving DecidableEq, Repr

/-- The named parameters of R4 that the model reads. TICK_RATE is read by no rule (R4, R215) and is no field. -/
structure Config where
  /-- GLYPHS: the 80 bytes of the built-in glyph table, address 0 first (R23). -/
  glyphs : List Byte
  /-- SHIFT_USES_VY: whether `8xy6` and `8xyE` shift Vy rather than Vx (R108, D6). -/
  shiftUsesVy : Bool
  /-- VF_LAST: whether the flag is written after the result, so that it remains when x = F (R112, D5). -/
  vfLast : Bool
  /-- KEY_INDEX_POLICY: a key index above 15 (R157, D8). -/
  keyIndexPolicy : KeyIndexPolicy
  deriving DecidableEq, Repr

/-- The glyph table of R23. PRESUMED by the spec itself, which marks the bytes 'from general knowledge, not in source'
(log 3). Unsafe for a claim about the pixels of a drawn digit. -/
def Config.conventionalGlyphs : List Byte :=
  [0xF0, 0x90, 0x90, 0x90, 0xF0] ++ [0x20, 0x60, 0x20, 0x20, 0x70] ++
  [0xF0, 0x10, 0xF0, 0x80, 0xF0] ++ [0xF0, 0x10, 0xF0, 0x10, 0xF0] ++
  [0x90, 0x90, 0xF0, 0x10, 0x10] ++ [0xF0, 0x80, 0xF0, 0x10, 0xF0] ++
  [0xF0, 0x80, 0xF0, 0x90, 0xF0] ++ [0xF0, 0x10, 0x20, 0x40, 0x40] ++
  [0xF0, 0x90, 0xF0, 0x90, 0xF0] ++ [0xF0, 0x90, 0xF0, 0x10, 0xF0] ++
  [0xF0, 0x90, 0xF0, 0x90, 0x90] ++ [0xE0, 0x90, 0xE0, 0x90, 0xE0] ++
  [0xF0, 0x80, 0x80, 0x80, 0xF0] ++ [0xE0, 0x90, 0x90, 0x90, 0xE0] ++
  [0xF0, 0x80, 0xF0, 0x80, 0xF0] ++ [0xF0, 0x80, 0xF0, 0x80, 0x80]

/-- The parameters at the values the spec takes (R4, second table; D5, D6, D8, D13). UNVERIFIED: each is the spec's own
decision about a point its source leaves open (logs 3 to 6). -/
def Config.chosen : Config where
  glyphs := Config.conventionalGlyphs
  shiftUsesVy := false
  vfLast := true
  keyIndexPolicy := .fault

/-- RANDOM: the byte `rnd` that the n-th executed `Cxkk` draws (R22, R158, D14). A FREE VALUE: it has no body, so nothing
can be proved about it that does not hold of every byte (log 1). -/
opaque Config.randomByte : Nat → Byte

end Sys2Proof
end

