-- ==== Sys2Proof/Machine/State.lean ====
section
/-! DEFINITION. The state of the machine: the twelve elements of 10_state.md R10 as plain data, the model's own count of random
draws, the faults of 60_exceptions.md R170, and the state after reset (R25, R200). -/

namespace Sys2Proof.Machine

/-- The space of an out-of-bounds index (R21, R174). -/
inductive Space where
  /-- An address above 4095. -/
  | mem
  /-- A key index above 15. -/
  | key
  deriving DecidableEq, Repr

/-- The four execution faults with their payloads (R170). A STEP that raises one is a next state with it latched in ERR (R178); a
STEP on a state where one is latched is the outcome `fault` with it (R180, log 2). Every one is safe: the machine stops where
the spec says it stops. -/
inductive Fault where
  /-- Raised by `2nnn` when SP = 16 (R171). Safe. -/
  | stackOverflow
  /-- Raised by `00EE` when SP = 0 (R172). Safe. -/
  | stackUnderflow
  /-- Raised by the decode when the word matches no row; the payload is the word (R173). Safe. -/
  | unknownOpcode (w : Word)
  /-- Raised by the fetch, `Dxyn`, `Fx33`, `Fx55`, `Fx65` with (Mem, the first address above 4095 the access needs), and by
  `Ex9E`, `ExA1` with (Key, Vx) (R174). Safe. -/
  | outOfBounds (space : Space) (index : Nat)
  deriving DecidableEq, Repr

/-- Why a step could have no meaning. Every instruction has its meaning, so no step of this model is refused. -/
inductive Refusal where
  /-- Raised by an arm of `exec` for an instruction that has no meaning yet; no arm does. Safe. -/
  | notModelled (mnemonic : String)
  deriving DecidableEq, Repr

/-- MEM: the cells that differ from what an unlisted address reads as, addresses strictly rising (`Memory.wf`, log 8). -/
abbrev Memory := List Host.Cell

/-- FB: 32 rows of 64 pixels, row 0 first and column 0 first (R19). -/
abbrev Frame := Vector (Vector Bool 64) 32

/-- The state of the hardware, "exactly the elements of the table" of R10, and the draw count. -/
structure State where
  /-- MEM, addresses 0 to 4095 (R24, R40). -/
  mem : Memory
  /-- V0 to VF; VF is V[15] (R11, R12). -/
  v : Vector Byte 16
  /-- I, the index register, 16 stored bits (R13). -/
  i : Word
  /-- PC (R14). -/
  pc : Word
  /-- STACK, 16 return-address slots (R16). -/
  stack : Vector Word 16
  /-- SP, the number of entries in use, 0 to 16 (R16, R27). -/
  sp : Fin 17
  /-- DT, the delay timer (R17). -/
  dt : Byte
  /-- ST, the sound timer (R17). -/
  st : Byte
  /-- KEY, the 16 key levels (R18). -/
  key : Vector Bool 16
  /-- FB, the framebuffer (R19). -/
  fb : Frame
  /-- DRAW, the draw flag (R20). -/
  draw : Bool
  /-- ERR, the fault latch; `none` is the spec's None (R21). -/
  err : Option Fault
  /-- The model's own field: the random bytes drawn so far (R22, R158, log 1). -/
  draws : Nat
  deriving DecidableEq, Repr

/-- A framebuffer with every pixel 0. -/
def Frame.clear : Frame := Vector.replicate 32 (Vector.replicate 64 false)

/-- The state right after RESET: the column 'after RESET' of R25. Memory lists nothing, since an unlisted address reads as the reset
image. The zeros other than PC, SP and the glyph table are the spec's decision D10 (UNVERIFIED, unsafe, log 7); `draws` is
a DESIGN CHOICE (log 1). -/
def State.reset : State where
  mem := []
  v := Vector.replicate 16 0
  i := 0
  pc := 0x200
  stack := Vector.replicate 16 0
  sp := 0
  dt := 0
  st := 0
  key := Vector.replicate 16 false
  fb := Frame.clear
  draw := false
  err := none
  draws := 0

/-- The three outcomes of one instruction or one STEP of this machine. -/
abbrev Result := Host.Outcome State Fault Refusal

end Sys2Proof.Machine
end

