-- ==== Sys2Proof/Machine/Memory.lean ====
section
/-! DEFINITION. The byte store of 20_memory.md: what an unlisted address reads as, the read and the write of one byte, the canonical
form, and the bytes a LOAD leaves. Addresses are natural numbers; the bound of R42 is checked by `rangeFault` (Machine/Ops.lean). -/

namespace Sys2Proof.Machine

/-- MEM_SIZE (R4). -/
def memSize : Nat := 4096

/-- PROG_BASE: the load address and the initial PC (R4). -/
def progBase : Nat := 0x200

/-- What an unlisted address reads as: the reset image, GLYPHS in 0 to 79 and 0 elsewhere (R24, R25; log 8). -/
def Memory.background (a : Nat) : Byte := Config.chosen.glyphs.getD a 0

/-- `MEM[a]` (R42). -/
def Memory.read : Memory → Nat → Byte
  | [], a => Memory.background a
  | (k, c) :: rest, a => if a = k then c else Memory.read rest a

/-- `MEM[a] <- b` (R43), keeping the canonical form: a cell that reads as its address does unlisted is not listed. -/
def Memory.write : Memory → Nat → Byte → Memory
  | [], a, b => if b = Memory.background a then [] else [(a, b)]
  | (k, c) :: rest, a, b =>
    if a < k then (if b = Memory.background a then (k, c) :: rest else (a, b) :: (k, c) :: rest)
    else if a = k then (if b = Memory.background a then rest else (a, b) :: rest)
    else (k, c) :: Memory.write rest a b

/-- Consecutive bytes, the first at address `a`. -/
def Memory.writeBytes : Memory → Nat → List Byte → Memory
  | m, _, [] => m
  | m, a, b :: bs => Memory.writeBytes (Memory.write m a b) (a + 1) bs

/-- The `n` bytes at `a`, `a + 1`, … in rising order (R47). -/
def Memory.readBytes (m : Memory) (a n : Nat) : List Byte := (List.range n).map fun j => m.read (a + j)

/-- The cells from address `lo` on are strictly rising, below 4096, and none reads as its address does unlisted. -/
def Memory.wfFrom : Nat → Memory → Bool
  | _, [] => true
  | lo, (k, c) :: rest => lo ≤ k && k < memSize && c != Memory.background k && Memory.wfFrom (k + 1) rest

/-- The canonical form: two memories in it with the same bytes are the same list. -/
def Memory.wf (m : Memory) : Bool := Memory.wfFrom 0 m

/-- The memory in which `bytes` stand from address `a` on and every other address reads as unlisted. -/
def Memory.image : Nat → List Byte → Memory
  | _, [] => []
  | a, b :: bs => if b = Memory.background a then Memory.image (a + 1) bs else (a, b) :: Memory.image (a + 1) bs

end Sys2Proof.Machine
end

