-- ==== Sys2Proof/Machine/Ops.lean ====
section
/-! DEFINITION. The named operations over registers, memory and the stack, the bounds check, and taking a fault, which every meaning is
built from. -/

namespace Sys2Proof.Machine

/-- VF is V[15] (R12). -/
def VF : Reg := 15

/-! ## One operation per state element -/

/-- `V[x]` (R11). -/
def State.getV (s : State) (x : Reg) : Byte := s.v[x]

/-- `V[x] <- b` (R11). -/
def State.setV (s : State) (x : Reg) (b : Byte) : State := { s with v := s.v.set x b }

/-- `I <- w` (R13). -/
def State.setI (s : State) (w : Word) : State := { s with i := w }

/-- `PC <- w` (R14). -/
def State.setPc (s : State) (w : Word) : State := { s with pc := w }

/-- `DT <- b` (R17). -/
def State.setDt (s : State) (b : Byte) : State := { s with dt := b }

/-- `ST <- b` (R17). -/
def State.setSt (s : State) (b : Byte) : State := { s with st := b }

/-- `KEY[k] <- d` (R18). -/
def State.setKey (s : State) (k : Fin 16) (d : Bool) : State := { s with key := s.key.set k d }

/-- Replace the framebuffer (R19). -/
def State.setFb (s : State) (fb : Frame) : State := { s with fb := fb }

/-- `DRAW <- d` (R20). -/
def State.setDraw (s : State) (d : Bool) : State := { s with draw := d }

/-- Replace the contents of memory (R24). -/
def State.setMem (s : State) (m : Memory) : State := { s with mem := m }

/-- `ERR <- f` (R21). -/
def State.latch (s : State) (f : Fault) : State := { s with err := some f }

/-- One byte has been drawn from the random source (R158). -/
def State.countDraw (s : State) : State := { s with draws := s.draws + 1 }

/-- Replace the registers V0 to VF together (R125). -/
def State.setRegs (s : State) (v : Vector Byte 16) : State := { s with v := v }

/-- `FB[r][c]` (R19). -/
def Frame.pixel (fb : Frame) (r : Fin 32) (c : Fin 64) : Bool := (fb[r])[c]

/-! ## The program counter -/

/-- The advance of the fetch, and a skip: PC + 2 (R60, R88). PC is 16 bits and never reaches the wrap (R15, log 21). -/
def State.advance (s : State) : State := s.setPc (s.pc + 2)

/-- Back to the instruction itself: PC - 2 (R154). -/
def State.rewind (s : State) : State := s.setPc (s.pc - 2)

/-- Skip the next instruction when the condition holds (R88). -/
def State.skipIf (s : State) (c : Bool) : State := if c then s.advance else s

/-! ## Faults -/

/-- Taking a fault, the one operation every `raise E(info)` is: ERR is set, the STEP ends and nothing else changes (R7, R178). The
machine has no handler, no vector and no saved PC; PC holds what the fetch left in it (R179). There is no return from a fault
in the machine: only RESET and a successful LOAD clear ERR (R181; Machine/HostEvents.lean). -/
def takeFault (f : Fault) (s : State) : Result := .next (s.latch f)

/-- The bounds check of an access to `len` consecutive bytes from address `first` on, made before any of them is touched: nothing
when all lie below 4096, else OutOfBounds(Mem, the first address above 4095 the access needs) (R42, R43, R44, R48; payload: the
spec's decision D1, log 10). -/
def rangeFault (first len : Nat) : Option Fault :=
  if len = 0 ∨ first + len ≤ memSize then none else some (.outOfBounds .mem (max first memSize))

/-- Check the `len` bytes at I, then go on; on a failed check nothing is read or written (R48, R126). -/
def guardRange (len : Nat) (s : State) (k : State → Result) : Result :=
  match rangeFault s.i.toNat len with
  | some f => takeFault f s
  | none => k s

/-! ## The call stack -/

/-- Push: `STACK[SP] <- w; SP <- SP + 1`, StackOverflow when SP = 16 (R16, R171). -/
def pushThen (w : Word) (s : State) (k : State → Result) : Result :=
  if h : s.sp.val < 16 then
    k { s with stack := s.stack.set s.sp.val w, sp := ⟨s.sp.val + 1, Nat.succ_lt_succ h⟩ }
  else takeFault .stackOverflow s

/-- Pop: `SP <- SP - 1; result STACK[SP]`, StackUnderflow when SP = 0; the slot keeps its value (R16, R172; log 18). -/
def popThen (s : State) (k : Word → State → Result) : Result :=
  if h : 0 < s.sp.val then
    k (s.stack[s.sp.val - 1]'(by have := s.sp.isLt; omega))
      { s with sp := ⟨s.sp.val - 1, by have := s.sp.isLt; omega⟩ }
  else takeFault .stackUnderflow s

/-! ## The fetch and the front of a STEP -/

/-- The word at PC, big-endian (R44, R45). -/
def State.fetchWord (s : State) : Word := wordOfBytes (s.mem.read s.pc.toNat) (s.mem.read (s.pc.toNat + 1))

/-- What the front of a STEP leaves to do. -/
inductive Front where
  /-- A fault is latched: the STEP returns it and changes nothing (R180). -/
  | stopped (f : Fault)
  /-- The fetch or the decode raised a fault; the state has it latched. -/
  | raised (s : State)
  /-- An instruction is to be executed on the state whose PC the fetch has advanced. -/
  | execute (i : Instr) (s : State)

/-- The front of a STEP in the order of R60 and R177: the latch, the fetch bound (PC unchanged on a fault), the advance of PC, the
decode (PC stays advanced on a fault, R179). -/
def State.front (s : State) : Front :=
  match s.err with
  | some f => .stopped f
  | none =>
    match rangeFault s.pc.toNat 2 with
    | some f => .raised (s.latch f)
    | none =>
      match decodeWord s.fetchWord with
      | .instr i => .execute i s.advance
      | _ => .raised (s.advance.latch (.unknownOpcode s.fetchWord))

end Sys2Proof.Machine
end

