-- ==== Sys2Proof/Machine/Operands.lean ====
section
/-! DEFINITION. The operand forms: immediates (R63), the memory operand at I (R126), the register range V0 to Vx, the operand of a
shift, the key operand, and the decimal digits of a byte. -/

namespace Sys2Proof.Machine

/-- An address immediate `nnn` as a 16-bit value, zeros above (R63). -/
def immAddr (nnn : BitVec 12) : Word := nnn.setWidth 16

/-- A register as a 16-bit addend, zeros above (R87, R121). -/
def State.regWord (s : State) (x : Reg) : Word := (s.getV x).setWidth 16

/-- The effective address of byte `j` of an access: I + j, an unbounded sum (R126). -/
def State.effAddr (s : State) (j : Nat) : Nat := s.i.toNat + j

/-- The bytes V0 to Vx in rising order (R124). -/
def State.regRange (s : State) (x : Reg) : List Byte := (List.finRange 16).filterMap fun j => if j ≤ x then some (s.getV j) else none

/-- The registers after bytes at I, I + 1, … are copied into V0 to Vx (R125). -/
def State.loadedRegs (s : State) (x : Reg) : Vector Byte 16 :=
  Vector.ofFn fun j : Fin 16 => if j ≤ x then s.mem.read (s.effAddr j.val) else s.getV j

/-- The decimal digits of a byte: hundreds, tens, ones (R123). -/
def decimalDigits (b : Byte) : List Byte := [b / 100, b / 10 % 10, b % 10]

/-- The operand of a shift: Vx, or Vy where SHIFT_USES_VY says so (R108, R110; D6, log 4). -/
def State.shiftOperand (s : State) (usesVy : Bool) (x y : Reg) : Byte := if usesVy then s.getV y else s.getV x

/-- The result of looking up the key level that a register byte names. -/
inductive KeyLookup where
  /-- The level of the key. -/
  | level (down : Bool)
  /-- The index is out of range and the policy is to fault. -/
  | fault (f : Fault)
  deriving DecidableEq, Repr

/-- `KEY[k]` for the whole byte `k`; above 15 as KEY_INDEX_POLICY says (R157, D8, log 6). -/
def State.keyLookup (s : State) (policy : KeyIndexPolicy) (k : Byte) : KeyLookup :=
  if h : k.toNat < 16 then .level s.key[k.toNat]
  else match policy with
    | .fault => .fault (.outOfBounds .key k.toNat)
    | .mask => .level (s.key[k.toNat % 16]'(Nat.mod_lt _ (by decide)))
    | .notPressed => .level false

/-- The least index of a key that is down, in scan order 0x0 to 0xF (R154). -/
def State.leastKey (s : State) : Option (Fin 16) := (List.finRange 16).find? fun k => s.key[k]

end Sys2Proof.Machine
end

