-- ==== Sys2Proof/Machine/Flags.lean ====
section
/-! DEFINITION. The flag computations of 41_alu.md, all from the operands as they were before the instruction (R111, R112), and the
write of a result together with its flag. -/

namespace Sys2Proof.Machine

/-- A flag value as the byte VF holds: 1 or 0 (R12). -/
def flagByte (c : Bool) : Byte := if c then 1 else 0

/-- `8xy4`: 1 iff the sum is above 255 (R106). -/
def carryFlag (a b : Byte) : Byte := flagByte (a.toNat + b.toNat > 255)

/-- `8xy5` and `8xy7`: 1 iff the minuend is strictly greater than the subtrahend (R107, R109). -/
def greaterFlag (minuend subtrahend : Byte) : Byte := flagByte (minuend.toNat > subtrahend.toNat)

/-- `8xy6`: the low bit before the shift (R108). -/
def lowBitFlag (a : Byte) : Byte := flagByte (a.getLsbD 0)

/-- `8xyE`: the high bit before the shift (R110). -/
def highBitFlag (a : Byte) : Byte := flagByte (a.getLsbD 7)

/-- Write a result to Vx and its flag to VF, the flag last where VF_LAST says so, so that it remains when x = F (R112, D5,
log 5). -/
def State.setResultFlag (s : State) (vfLast : Bool) (x : Reg) (result flag : Byte) : State :=
  if vfLast then (s.setV x result).setV VF flag else (s.setV VF flag).setV x result

end Sys2Proof.Machine
end

