-- ==== Sys2Proof/Machine/Alu.lean ====
section
/-! DEFINITION. The load-immediate, add-immediate and register-to-register instructions of 41_alu.md. PC already holds the address of
the instruction plus 2 (R60), and none of them touches anything but Vx and, for five of them, VF. -/

namespace Sys2Proof.Machine

/-- `6xkk`: Vx := kk (R100). -/
def execLdImm (x : Reg) (kk : Byte) (s : State) : Result := .next (s.setV x kk)

/-- `7xkk`: Vx := (Vx + kk) mod 256, no flag (R101). -/
def execAddImm (x : Reg) (kk : Byte) (s : State) : Result := .next (s.setV x (s.getV x + kk))

/-- `8xy0`: Vx := Vy (R102; the direction is PRESUMED by the spec, G6, log 14). -/
def execLdReg (x y : Reg) (s : State) : Result := .next (s.setV x (s.getV y))

/-- `8xy1`: Vx := Vx OR Vy, no flag (R103). -/
def execOrReg (x y : Reg) (s : State) : Result := .next (s.setV x (s.getV x ||| s.getV y))

/-- `8xy2`: Vx := Vx AND Vy, no flag (R104). -/
def execAndReg (x y : Reg) (s : State) : Result := .next (s.setV x (s.getV x &&& s.getV y))

/-- `8xy3`: Vx := Vx XOR Vy, no flag (R105). -/
def execXorReg (x y : Reg) (s : State) : Result := .next (s.setV x (s.getV x ^^^ s.getV y))

/-- `8xy4`: Vx := (Vx + Vy) mod 256, VF := carry (R106, R112). -/
def execAddReg (x y : Reg) (s : State) : Result :=
  .next (s.setResultFlag Config.chosen.vfLast x (s.getV x + s.getV y) (carryFlag (s.getV x) (s.getV y)))

/-- `8xy5`: Vx := (Vx - Vy) mod 256, VF := Vx > Vy (R107, R112). -/
def execSubReg (x y : Reg) (s : State) : Result :=
  .next (s.setResultFlag Config.chosen.vfLast x (s.getV x - s.getV y) (greaterFlag (s.getV x) (s.getV y)))

/-- `8xy6`: logical shift right by 1, VF := the bit shifted out (R108, R112). -/
def execShr (x y : Reg) (s : State) : Result :=
  let a := s.shiftOperand Config.chosen.shiftUsesVy x y
  .next (s.setResultFlag Config.chosen.vfLast x (a >>> 1) (lowBitFlag a))

/-- `8xy7`: Vx := (Vy - Vx) mod 256, VF := Vy > Vx (R109, R112). -/
def execSubnReg (x y : Reg) (s : State) : Result :=
  .next (s.setResultFlag Config.chosen.vfLast x (s.getV y - s.getV x) (greaterFlag (s.getV y) (s.getV x)))

/-- `8xyE`: shift left by 1, VF := the bit shifted out (R110, R112). -/
def execShl (x y : Reg) (s : State) : Result :=
  let a := s.shiftOperand Config.chosen.shiftUsesVy x y
  .next (s.setResultFlag Config.chosen.vfLast x (a <<< 1) (highBitFlag a))

end Sys2Proof.Machine
end

