-- ==== Sys2Proof/Machine/ControlFlow.lean ====
section
/-! DEFINITION. The control-flow instructions of 40_control_flow.md. PC already holds the address of the instruction plus 2 (R60). No
target is checked or aligned when PC is written (R88). -/

namespace Sys2Proof.Machine

/-- `00EE`: pop the stack into PC; StackUnderflow when it is empty (R80). -/
def execRet (s : State) : Result := popThen s fun w s => .next (s.setPc w)

/-- `1nnn`: PC := nnn (R81). -/
def execJp (nnn : BitVec 12) (s : State) : Result := .next (s.setPc (immAddr nnn))

/-- `2nnn`: push PC, then PC := nnn; StackOverflow when the stack is full (R82). -/
def execCall (nnn : BitVec 12) (s : State) : Result := pushThen s.pc s fun s => .next (s.setPc (immAddr nnn))

/-- `3xkk`: skip if Vx = kk (R83). -/
def execSeImm (x : Reg) (kk : Byte) (s : State) : Result := .next (s.skipIf (s.getV x == kk))

/-- `4xkk`: skip if Vx ≠ kk (R84). -/
def execSneImm (x : Reg) (kk : Byte) (s : State) : Result := .next (s.skipIf (s.getV x != kk))

/-- `5xy0`: skip if Vx = Vy (R85). -/
def execSeReg (x y : Reg) (s : State) : Result := .next (s.skipIf (s.getV x == s.getV y))

/-- `9xy0`: skip if Vx ≠ Vy (R86). -/
def execSneReg (x y : Reg) (s : State) : Result := .next (s.skipIf (s.getV x != s.getV y))

/-- `Bnnn`: PC := nnn + V0, not reduced (R87). -/
def execJpV0 (nnn : BitVec 12) (s : State) : Result := .next (s.setPc (immAddr nnn + s.regWord 0))

end Sys2Proof.Machine
end

