-- ==== Sys2Proof/Machine/Display.lean ====
section
/-! DEFINITION. The display instructions of 43_display.md: the clear and the sprite raster with its collision detector. -/

namespace Sys2Proof.Machine

/-- What the raster of one `Dxyn` works on: the pixels, whether a toggled pixel was 1 (R143), whether any pixel was toggled
(R144). -/
structure Raster where
  /-- The framebuffer so far. -/
  fb : Frame
  /-- A toggled pixel was 1 before its toggle. -/
  collided : Bool
  /-- Some pixel was toggled. -/
  toggled : Bool
  deriving DecidableEq, Repr

/-- A row number reduced mod 32: coordinates wrap, they do not clip (R142). -/
def wrapRow (r : Nat) : Fin 32 := Fin.ofNat 32 r

/-- A column number reduced mod 64 (R142). -/
def wrapCol (c : Nat) : Fin 64 := Fin.ofNat 64 c

/-- Toggle `FB[r][c]`, noting a collision when it was 1 (R141, R143). -/
def Raster.toggle (p : Raster) (r : Fin 32) (c : Fin 64) : Raster where
  fb := p.fb.set r ((p.fb[r]).set c (!p.fb.pixel r c))
  collided := p.collided || p.fb.pixel r c
  toggled := true

/-- Pixel `bit` of a sprite row byte is its bit 7 - bit: the most significant bit is the leftmost pixel (R142; PRESUMED by the spec,
D7, G2, log 13). -/
def spriteBit (b : Byte) (bit : Nat) : Bool := b.getLsbD (7 - bit)

/-- The pixels of one sprite row: every set bit toggles its wrapped destination (R141, R142). -/
def Raster.drawRow (xp y : Nat) (b : Byte) (p : Raster) : Raster :=
  (List.range 8).foldl (fun p bit => if spriteBit b bit then p.toggle (wrapRow y) (wrapCol (xp + bit)) else p) p

/-- The rows of a sprite, the first on row `y`, each next one below (R141). -/
def Raster.drawRows (xp : Nat) : Nat → List Byte → Raster → Raster
  | _, [], p => p
  | y, b :: bs, p => Raster.drawRows xp (y + 1) bs (p.drawRow xp y b)

/-- The raster of a sprite with its origin at column Vx mod 64 and row Vy mod 32, both read before VF is reset (R141; C4, D7). -/
def State.drawSprite (s : State) (x y : Reg) (sprite : List Byte) : Raster :=
  Raster.drawRows ((s.getV x).toNat % 64) ((s.getV y).toNat % 32) sprite ⟨s.fb, false, false⟩

/-- `00E0`: every pixel 0, DRAW := 1, also when nothing was lit (R140, R144). -/
def execCls (s : State) : Result := .next ((s.setFb Frame.clear).setDraw true)

/-- `Dxyn`: draw the `n` bytes at I; VF := collision; DRAW := 1 when a pixel was toggled; on a failed bounds check nothing changes (R141,
R143, R144, R48). -/
def execDrw (x y : Reg) (n : BitVec 4) (s : State) : Result :=
  guardRange n.toNat s fun s =>
    let p := s.drawSprite x y (s.mem.readBytes (s.effAddr 0) n.toNat)
    .next (((s.setFb p.fb).setDraw (s.draw || p.toggled)).setV VF (flagByte p.collided))

end Sys2Proof.Machine
end

