-- ==== Sys2Proof/Machine/IndexMemory.lean ====
section
/-! DEFINITION. The index-register and memory instructions of 42_index_memory.md. None changes I as a side effect of an access (R126);
each that touches several bytes checks them all first (R48). -/

namespace Sys2Proof.Machine

/-- `Annn`: I := nnn (R120). -/
def execLdI (nnn : BitVec 12) (s : State) : Result := .next (s.setI (immAddr nnn))

/-- `Fx1E`: I := (I + Vx) mod 4096, no flag, no fault (R121). -/
def execAddI (x : Reg) (s : State) : Result := .next (s.setI ((s.i + s.regWord x) % 4096))

/-- `Fx29`: I := Vx * 5, the whole byte (R122). -/
def execLdF (x : Reg) (s : State) : Result := .next (s.setI (s.regWord x * 5))

/-- `Fx33`: the decimal digits of Vx to I, I + 1, I + 2 (R123). -/
def execLdB (x : Reg) (s : State) : Result :=
  guardRange 3 s fun s => .next (s.setMem (s.mem.writeBytes (s.effAddr 0) (decimalDigits (s.getV x))))

/-- `Fx55`: V0 to Vx to I, I + 1, …, I + x (R124). -/
def execStoreRegs (x : Reg) (s : State) : Result :=
  guardRange (x.val + 1) s fun s => .next (s.setMem (s.mem.writeBytes (s.effAddr 0) (s.regRange x)))

/-- `Fx65`: I, I + 1, …, I + x to V0 to Vx (R125). -/
def execLoadRegs (x : Reg) (s : State) : Result :=
  guardRange (x.val + 1) s fun s => .next (s.setRegs (s.loadedRegs x))

end Sys2Proof.Machine
end

