-- ==== Sys2Proof/Machine/TimerKeyRandom.lean ====
section
/-! DEFINITION. The random, keyboard and timer instructions of 44_timer_key_random.md. None defines a flag or touches memory. -/

namespace Sys2Proof.Machine

/-- `Cxkk`: Vx := rnd AND kk, where rnd is the next byte of the random source, a free value (R150, R158; log 1). -/
def execRnd (x : Reg) (kk : Byte) (s : State) : Result :=
  .next ((s.setV x (Config.randomByte s.draws &&& kk)).countDraw)

/-- Look up the key Vx names, then skip when its level is `wanted`; a bad index faults (R151, R152, R157). -/
def skipOnKey (x : Reg) (wanted : Bool) (s : State) : Result :=
  match s.keyLookup Config.chosen.keyIndexPolicy (s.getV x) with
  | .level down => .next (s.skipIf (down == wanted))
  | .fault f => takeFault f s

/-- `Ex9E`: skip if key Vx is pressed (R151). -/
def execSkp (x : Reg) (s : State) : Result := skipOnKey x true s

/-- `ExA1`: skip if key Vx is not pressed (R152). -/
def execSknp (x : Reg) (s : State) : Result := skipOnKey x false s

/-- `Fx07`: Vx := DT (R153; direction and timer PRESUMED by the spec, D9, G4, log 14). -/
def execLdVxDt (x : Reg) (s : State) : Result := .next (s.setV x s.dt)

/-- `Fx0A`: with no key down PC goes back to the instruction itself; else Vx := the least key that is down. It never blocks (R154). -/
def execLdVxK (x : Reg) (s : State) : Result :=
  match s.leastKey with
  | none => .next s.rewind
  | some k => .next (s.setV x (BitVec.ofNat 8 k.val))

/-- `Fx15`: DT := Vx (R155; D9, G4, log 14). -/
def execLdDtVx (x : Reg) (s : State) : Result := .next (s.setDt (s.getV x))

/-- `Fx18`: ST := Vx; no stop pulse, which only TICK gives (R156, R185; D9, G4, log 14). -/
def execLdStVx (x : Reg) (s : State) : Result := .next (s.setSt (s.getV x))

end Sys2Proof.Machine
end

