-- ==== Sys2Proof/Machine/Step.lean ====
section
/-! DEFINITION. The STEP event (30_encoding.md R60), and the placing of one instruction word where the next STEP fetches it. -/

namespace Sys2Proof.Machine

/-- STEP: the front (latch, fetch, advance, decode), then the instruction. A latched fault is returned and nothing changes, so the
machine stops there (R60, R180; log 2). -/
def step (s : State) : Host.Outcome State Fault Refusal :=
  match s.front with
  | .stopped f => .fault f
  | .raised t => .next t
  | .execute i t => exec i t

/-- `s` with an instruction word stored where the next STEP fetches: at PC, high byte first (R44, R45), ERR being None, which the
fetch needs (R180), and PC the entry point where the PC of `s` cannot be fetched from (log 16). -/
def State.withFetchWord (s : State) (nbits w : Nat) : State :=
  let pc : Word := if s.pc.toNat + 2 ≤ memSize then s.pc else BitVec.ofNat 16 progBase
  { s with
    mem := s.mem.writeBytes pc.toNat [highByte (tableWord nbits w), lowByte (tableWord nbits w)]
    pc := pc
    err := none }

end Sys2Proof.Machine
end

