-- ==== Sys2Proof/Machine/HostEvents.lean ====
section
/-! DEFINITION. The host's events other than STEP (00_scope.md R5): each a total function of the state. None depends on ERR (R191). -/

namespace Sys2Proof.Machine

/-- TICK: `pulse <- (ST == 1)`, then each nonzero counter goes down by 1; the pulse is the result (R184, R185). -/
def State.tick (s : State) : Bool × State :=
  (s.st == 1,
    (s.setDt (if s.dt = 0 then 0 else s.dt - 1)).setSt (if s.st = 0 then 0 else s.st - 1))

/-- The sound level `ST != 0`, a read-only output (R186). -/
def State.soundLevel (s : State) : Bool := s.st != 0

/-- KEY_DOWN(k) and KEY_UP(k): the level of key `k`; nothing for a `k` outside 0 to 15 (R187). -/
def State.keyEvent (s : State) (k : Nat) (down : Bool) : State :=
  if h : k < 16 then s.setKey ⟨k, h⟩ down else s

/-- KEY_DOWN(k) (R187). -/
def State.keyDown (s : State) (k : Nat) : State := s.keyEvent k true

/-- KEY_UP(k) (R187). -/
def State.keyUp (s : State) (k : Nat) : State := s.keyEvent k false

/-- TAKE_DRAW_FLAG: the flag before the event, which is then 0 (R188). -/
def State.takeDrawFlag (s : State) : Bool × State := (s.draw, s.setDraw false)

/-- READ_FB: the 64 by 32 bit grid, `FB[r][c]`; no state changes (R189). -/
def State.readFb (s : State) : Frame := s.fb

/-- The flat presentation of the grid: cell `r * 64 + c` (R19, D23). -/
def Frame.flat (fb : Frame) : List Bool := (List.finRange 32).flatMap fun r => (List.finRange 64).map fun c => fb.pixel r c

/-- RESET on a machine that already runs: every element of R10 at its reset value (R200). The random source is no element (R22), so
the count of its draws goes on (log 1). -/
def State.resetEvent (s : State) : State := { State.reset with draws := s.draws }

/-- The result of LOAD (R201, R175). -/
inductive LoadResult where
  /-- The program is loaded. -/
  | ok
  /-- More than 3584 bytes were given; nothing has changed (R202). -/
  | romTooLarge
  deriving DecidableEq, Repr

/-- LOAD(bytes): all CPU state reset, all of memory rewritten, the image from 0x200 on, DRAW := 1, ERR := None, KEY not written; more
than 3584 bytes change nothing (R201, R202, R203; D11, D12, log 9). -/
def State.load (s : State) (bytes : List Byte) : LoadResult × State :=
  if romFits bytes then
    (.ok, { State.reset with mem := Memory.image progBase bytes, key := s.key, draw := true, draws := s.draws })
  else (.romTooLarge, s)

end Sys2Proof.Machine
end

