-- ==== Sys2Proof/Machine/Events.lean ====
section
/-! DEFINITION. All eight events of 00_scope.md R5 in one type, one transition function, and a run over a list of events in any order
(R190): what a claim about every interleaving of the core and the host quantifies over. -/

namespace Sys2Proof.Machine

/-- The events that act on the state: "the complete list of events" (R5). The random byte of STEP is the free value (log 1). -/
inductive Event where
  /-- RESET (R200). -/
  | reset
  /-- LOAD(bytes) (R201). -/
  | load (bytes : List Byte)
  /-- STEP (R60). -/
  | step
  /-- TICK (R184). -/
  | tick
  /-- KEY_DOWN(k) (R187). -/
  | keyDown (k : Nat)
  /-- KEY_UP(k) (R187). -/
  | keyUp (k : Nat)
  /-- TAKE_DRAW_FLAG (R188). -/
  | takeDrawFlag
  /-- READ_FB (R189). -/
  | readFb
  deriving DecidableEq, Repr

/-- What an event returns to the host: the column 'result' of R5. -/
inductive EventResult where
  /-- No result. -/
  | none
  /-- The result of LOAD. -/
  | loaded (r : LoadResult)
  /-- The result of STEP: ok, or the fault it raised or found latched (R7, R180). -/
  | stepped (r : Option Fault)
  /-- The step had no meaning; no step of this model gives it. -/
  | refused (r : Refusal)
  /-- The sound-stop pulse of TICK (R185). -/
  | pulse (p : Bool)
  /-- The draw flag before TAKE_DRAW_FLAG. -/
  | drawFlag (d : Bool)
  /-- The grid of READ_FB. -/
  | frame (fb : Frame)
  deriving DecidableEq, Repr

/-- STEP as an event: a next state has ERR as its result; a latched fault is returned and nothing changes (R60, R180). -/
def State.stepEvent (s : State) : EventResult × State :=
  match Machine.step s with
  | .next t => (.stepped t.err, t)
  | .fault f => (.stepped (some f), s)
  | .refused r => (.refused r, s)

/-- One event, atomic (R5). -/
def State.apply (s : State) : Event → EventResult × State
  | .reset => (.none, s.resetEvent)
  | .load bytes => (.loaded (s.load bytes).1, (s.load bytes).2)
  | .step => s.stepEvent
  | .tick => (.pulse s.tick.1, s.tick.2)
  | .keyDown k => (.none, s.keyDown k)
  | .keyUp k => (.none, s.keyUp k)
  | .takeDrawFlag => (.drawFlag s.takeDrawFlag.1, s.takeDrawFlag.2)
  | .readFb => (.frame s.readFb, s)

/-- The state after a list of events, the first of the list first (R190). -/
def State.runEvents (s : State) : List Event → State
  | [] => s
  | e :: es => (s.apply e).2.runEvents es

end Sys2Proof.Machine
end

