-- ==== Sys2Proof/Safety.lean ====
section
/-! DEFINITION. The terms claims use: what a good state is, the invariant of the machine, a quiescent state, and the frames: what an instruction leaves unchanged. -/

namespace Sys2Proof.Machine

/-- No fault is latched: "a faulted state must never be taken for a good end" (D2, U4). -/
def State.good (s : State) : Bool := s.err.isNone

/-- The invariant of the machine: memory in canonical form, I in 0 to 0x0FFF (R13, R27), PC at most 0x10FE (R15), and every STACK slot
below SP at most 4098 (R27). SP in 0 to 16 is part of its type. -/
structure Inv (s : State) : Prop where
  /-- The memory list is canonical (log 8). -/
  mem_wf : s.mem.wf = true
  /-- I is a 12-bit value. -/
  i_lt : s.i.toNat < 4096
  /-- PC never reaches the 16-bit wrap. -/
  pc_le : s.pc.toNat ≤ 4350
  /-- A return address in use is an advanced fetch address. -/
  stack_le : ∀ j : Fin 16, j.val < s.sp.val → s.stack[j].toNat ≤ 4098

/-- A quiescent state: ERR = None and the instruction at PC, in range, is `1nnn` with nnn = PC (R213, D24). -/
def State.quiescent (s : State) : Prop :=
  s.err = none ∧ s.pc.toNat + 2 ≤ memSize ∧ ∃ nnn, decodeWord s.fetchWord = .instr (.jp nnn) ∧ immAddr nnn = s.pc

/-- The elements of the state: the rows of R10, and the model's draw count. -/
inductive Element where
  | mem | v | i | pc | stack | sp | dt | st | key | fb | draw | err | draws
  deriving DecidableEq, Repr

/-- An element is the same in two states. Memory is compared byte by byte, through the read of one byte. -/
def Element.same (e : Element) (s t : State) : Prop :=
  match e with
  | .mem => ∀ a, t.mem.read a = s.mem.read a
  | .v => t.v = s.v
  | .i => t.i = s.i
  | .pc => t.pc = s.pc
  | .stack => t.stack = s.stack
  | .sp => t.sp = s.sp
  | .dt => t.dt = s.dt
  | .st => t.st = s.st
  | .key => t.key = s.key
  | .fb => t.fb = s.fb
  | .draw => t.draw = s.draw
  | .err => t.err = s.err
  | .draws => t.draws = s.draws

/-- The frame: every element but the listed ones is the same in `t` as in `s`. -/
def SameBut (changed : List Element) (s t : State) : Prop := ∀ e, e ∉ changed → e.same s t

/-- Every register but the listed ones is the same in `t` as in `s`. -/
def RegsSameBut (changed : List Reg) (s t : State) : Prop := ∀ r, r ∉ changed → t.getV r = s.getV r

/-- Every byte of memory outside the `len` bytes at `first` is the same in `t` as in `s`. -/
def MemSameOutside (first len : Nat) (s t : State) : Prop :=
  ∀ a, (a < first ∨ first + len ≤ a) → t.mem.read a = s.mem.read a

/-! ## What each instruction may write -/

/-- The column 'written by' of R10, read per instruction: the elements an executed instruction may write, ERR where it can fault
(R170). -/
def Instr.writes : Instr → List Element
  | .cls => [.fb, .draw]
  | .ret => [.sp, .pc, .err]
  | .call _ => [.stack, .sp, .pc, .err]
  | .jp _ | .jpV0 _ | .seImm _ _ | .sneImm _ _ | .seReg _ _ | .sneReg _ _ => [.pc]
  | .ldImm _ _ | .addImm _ _ | .ldReg _ _ | .orReg _ _ | .andReg _ _ | .xorReg _ _ => [.v]
  | .addReg _ _ | .subReg _ _ | .shr _ _ | .subnReg _ _ | .shl _ _ => [.v]
  | .ldI _ | .addI _ | .ldF _ => [.i]
  | .rnd _ _ => [.v, .draws]
  | .drw _ _ _ => [.v, .fb, .draw, .err]
  | .skp _ | .sknp _ => [.pc, .err]
  | .ldVxDt _ => [.v]
  | .ldVxK _ => [.v, .pc]
  | .ldDtVx _ => [.dt]
  | .ldStVx _ => [.st]
  | .ldB _ | .storeRegs _ => [.mem, .err]
  | .loadRegs _ => [.v, .err]

/-- "The instructions that define a flag are exactly `8xy4`, `8xy5`, `8xy6`, `8xy7`, `8xyE` and `Dxyn`" (R12). -/
def Instr.definesFlag : Instr → Bool
  | .addReg _ _ | .subReg _ _ | .shr _ _ | .subnReg _ _ | .shl _ _ | .drw _ _ _ => true
  | .cls | .ret | .jp _ | .call _ | .seImm _ _ | .sneImm _ _ | .seReg _ _ | .ldImm _ _ | .addImm _ _ => false
  | .ldReg _ _ | .orReg _ _ | .andReg _ _ | .xorReg _ _ | .sneReg _ _ | .ldI _ | .jpV0 _ | .rnd _ _ => false
  | .skp _ | .sknp _ | .ldVxDt _ | .ldVxK _ | .ldDtVx _ | .ldStVx _ | .addI _ | .ldF _ | .ldB _ => false
  | .storeRegs _ | .loadRegs _ => false

/-- The column 'writes' of R28 without the flag: the registers an instruction names as its destination. -/
def Instr.isDest (r : Reg) : Instr → Bool
  | .ldImm x _ | .addImm x _ | .ldReg x _ | .orReg x _ | .andReg x _ | .xorReg x _ => r = x
  | .addReg x _ | .subReg x _ | .shr x _ | .subnReg x _ | .shl x _ | .rnd x _ | .ldVxDt x | .ldVxK x => r = x
  | .loadRegs x => r ≤ x
  | .cls | .ret | .jp _ | .call _ | .seImm _ _ | .sneImm _ _ | .seReg _ _ | .sneReg _ _ | .ldI _ | .jpV0 _ => false
  | .drw _ _ _ | .skp _ | .sknp _ | .ldDtVx _ | .ldStVx _ | .addI _ | .ldF _ | .ldB _ | .storeRegs _ => false

/-! ## Words by their fields

Written from the field places of R62 alone, high field first, so that a claim about an encoding does not rest on `encode`. -/

/-- The word with `op` in bits 15 to 12 and `nnn` below it. -/
def wordNnn (op : BitVec 4) (nnn : BitVec 12) : Word := op ++ nnn

/-- The word with `op`, `x` in bits 11 to 8 and `kk` below them. -/
def wordXkk (op : BitVec 4) (x : Reg) (kk : Byte) : Word := op ++ BitVec.ofNat 4 x.val ++ kk

/-- The word with `op`, `x`, `y` in bits 7 to 4 and `n` below them. -/
def wordXyn (op : BitVec 4) (x y : Reg) (n : BitVec 4) : Word :=
  op ++ BitVec.ofNat 4 x.val ++ BitVec.ofNat 4 y.val ++ n

/-! ## Terms of single claims -/

/-- The pixel (r, c) is the wrapped destination of a set bit of the `n`-row sprite at I drawn at (Vx, Vy): some row below `n` and some
bit below 8 with `(x_pos + bit) mod 64 = c`, `(y_pos + row) mod 32 = r`, and bit 7 - bit of MEM[I + row] set (R141, R142). -/
def SpriteCovers (s : State) (x y : Reg) (n : Nat) (r : Fin 32) (c : Fin 64) : Prop :=
  ∃ row, row < n ∧ ∃ bit, bit < 8 ∧ (s.mem.read (s.effAddr row)).getLsbD (7 - bit) = true ∧
    c.val = ((s.getV x).toNat % 64 + bit) % 64 ∧ r.val = ((s.getV y).toNat % 32 + row) % 32

/-- The calls of a list of targets one after another, as long as each answers a next state. -/
def callAll : List (BitVec 12) → State → Result
  | [], s => .next s
  | nnn :: rest, s =>
    match exec (.call nnn) s with
    | .next t => callAll rest t
    | .fault f => .fault f
    | .refused r => .refused r

/-- The state after `n` TICKs. -/
def State.ticks (s : State) : Nat → State
  | 0 => s
  | n + 1 => s.tick.2.ticks n

/-- The number of sound-stop pulses that `n` TICKs return. -/
def State.pulses (s : State) : Nat → Nat
  | 0 => 0
  | n + 1 => (if s.tick.1 then 1 else 0) + s.tick.2.pulses n

/-- The state without the two elements that only the host reads, ST and DRAW (R17, R20). -/
def State.hideOutputs (s : State) : State := (s.setSt 0).setDraw false

/-- Two outcomes are the same as far as `f` shows a state. -/
def SameUpTo (f : State → State) : Result → Result → Prop
  | .next a, .next b => f a = f b
  | .fault a, .fault b => a = b
  | .refused a, .refused b => a = b
  | .next _, .fault _ | .next _, .refused _ | .fault _, .next _ => False
  | .fault _, .refused _ | .refused _, .next _ | .refused _, .fault _ => False

end Sys2Proof.Machine
end

