-- ==== Sys2Proof/Certificates/Slice0/Obligations.lean ====
section
/-! DEFINITION. The statements for the provers. They hold of every state, reachable or not, unless a premise says otherwise; the
premises `wf` and I ≤ 4095 are parts of the invariant `Inv`, which is a statement of its own. In the statements about `exec` the state `s` is the one
the instruction executes on, with PC already advanced by the fetch (R60). -/

open Sys2Proof Sys2Proof.Machine

/-! ## Reset, encoding, the STEP -/

/-- R200, R25: the state after RESET. PC, SP and the place of the glyph table are the source's; the zeros, DRAW and ERR are the spec's
decisions D10 and D2 (log 7), the glyph bytes its parameter GLYPHS (log 3). -/
def Obligations.ResetStateHoldsSpecValues : Prop :=
  State.reset.pc = 0x200 ∧ State.reset.sp = 0 ∧ State.reset.i = 0 ∧ State.reset.dt = 0 ∧ State.reset.st = 0 ∧
  (∀ r, State.reset.getV r = 0) ∧ (∀ j : Fin 16, State.reset.stack[j] = 0) ∧ (∀ k : Fin 16, State.reset.key[k] = false) ∧
  (∀ r c, State.reset.fb.pixel r c = false) ∧ State.reset.draw = false ∧ State.reset.err = none ∧
  (∀ a, a < 80 → State.reset.mem.read a = Config.chosen.glyphs.getD a 0) ∧
  (∀ a, 80 ≤ a → a < 4096 → State.reset.mem.read a = 0)

/-- R62, R64, R66: the bytes of every well-formed instruction, whatever follows them, decode to that instruction. -/
def Obligations.DecodeOfEncodeIsInstruction : Prop :=
  ∀ (i : Instr) (rest : List Byte), i.wellFormed = true → decodeBytes (encodeBytes i ++ rest) = .instr i

/-- R66, R68: a word that decodes has one meaning, and it is the word of that meaning; no bit of it is dropped. -/
def Obligations.EncodeOfDecodeIsWord : Prop :=
  ∀ (w : Word) (i : Instr), decodeWord w = .instr i → encode i = w

/-- R66: the map has 34 rows; a word that selects a row decodes to an instruction of that row; the rows are disjoint; a word that selects
none is unknown. -/
def Obligations.DecodeFollowsOpcodeMap : Prop :=
  opcodeTable.length = 34 ∧
  (∀ (w : Word) (r : OpcodeRow), r ∈ opcodeTable → r.selects w = true → ∃ i, decodeWord w = .instr i ∧ i.row = r) ∧
  (∀ (w : Word) (r r' : OpcodeRow), r ∈ opcodeTable → r' ∈ opcodeTable → r.selects w = true → r'.selects w = true → r = r') ∧
  (∀ w : Word, (∀ r ∈ opcodeTable, r.selects w = false) → decodeWord w = .unknownOpcode w)

/-- R67, the table of illegal words by family. The rows of families 0, 5, 9 and E are the spec's decision D4 (log 12). -/
def Obligations.IllegalWordsAreTheListedOnes : Prop :=
  ∀ w : Word, decodeWord w = .unknownOpcode w ↔
    (fieldOp w = 0 ∧ w ≠ 0x00E0 ∧ w ≠ 0x00EE) ∨
    (fieldOp w = 5 ∧ fieldN w ≠ 0) ∨
    (fieldOp w = 8 ∧ (fieldN w).toNat ∈ [0x8, 0x9, 0xA, 0xB, 0xC, 0xD, 0xF]) ∨
    (fieldOp w = 9 ∧ fieldN w ≠ 0) ∨
    (fieldOp w = 0xE ∧ fieldKk w ≠ 0x9E ∧ fieldKk w ≠ 0xA1) ∨
    (fieldOp w = 0xF ∧ (fieldKk w).toNat ∉ [0x07, 0x0A, 0x15, 0x18, 0x1E, 0x29, 0x33, 0x55, 0x65])

/-- A few words, bit by bit from the column 'encoding' of the opcode table, one of each format, decode to what they stand for. -/
def Obligations.WrittenOutWordsDecode : Prop :=
  decodeWord 0b0000000011101110#16 = .instr .ret ∧
  decodeWord 0b0001001000000100#16 = .instr (.jp 0x204) ∧
  decodeWord 0b0110101001110111#16 = .instr (.ldImm 0xA 0x77) ∧
  decodeWord 0b1000000100100101#16 = .instr (.subReg 0x1 0x2) ∧
  decodeWord 0b1101000100100011#16 = .instr (.drw 0x1 0x2 0x3) ∧
  decodeWord 0b1111001001010101#16 = .instr (.storeRegs 0x2)

/-- R60: with ERR = None and PC at most 4094, when the two bytes at PC decode to an instruction, STEP is the execution of that instruction
on the state whose PC is 2 further and which is otherwise the same. -/
def Obligations.StepRunsTheDecodedInstruction : Prop :=
  ∀ (s : State) (i : Instr), s.err = none → s.pc.toNat ≤ 4094 →
    decodeBytes [s.mem.read s.pc.toNat, s.mem.read (s.pc.toNat + 1)] = .instr i →
    step s = exec i { s with pc := s.pc + 2 }

/-- R173, R179, R60: a word that matches no row is latched as UnknownOpcode with the word, PC stays advanced, nothing else changes. The latch
and the PC are the spec's decisions D2 and D3 (logs 2 and 11). -/
def Obligations.StepLatchesUnknownOpcode : Prop :=
  ∀ (s : State) (w : Word), s.err = none → s.pc.toNat ≤ 4094 →
    w = s.mem.read s.pc.toNat ++ s.mem.read (s.pc.toNat + 1) → decodeWord w = .unknownOpcode w →
    ∃ t, step s = .next t ∧ t.err = some (.unknownOpcode w) ∧ t.pc = s.pc + 2 ∧ SameBut [.pc, .err] s t

/-- R44, R174, R179: a PC of 4095 or more faults at the fetch with the first address above 4095, PC unchanged. Payload, latch and
the rest unchanged are the spec's decisions D1, D2, D3 (logs 10, 2, 11). -/
def Obligations.StepLatchesFetchFault : Prop :=
  ∀ s : State, s.err = none → 4095 ≤ s.pc.toNat →
    ∃ t, step s = .next t ∧ t.err = some (.outOfBounds .mem (max s.pc.toNat 4096)) ∧ SameBut [.err] s t

/-- R180: while ERR is set, STEP returns the latched fault and changes nothing (decision D2, log 2). -/
def Obligations.StepOnLatchedFaultReturnsIt : Prop :=
  ∀ (s : State) (f : Fault), s.err = some f → step s = .fault f ∧ s.apply .step = (.stepped (some f), s)

/-! ## Control flow -/

/-- R81, R87: the jumps, their words and their effect. The sum of `Bnnn` is not reduced mod 4096. -/
def Obligations.JumpsSetPc : Prop :=
  ∀ (nnn : BitVec 12) (s : State),
    decodeWord (wordNnn 0x1 nnn) = .instr (.jp nnn) ∧ decodeWord (wordNnn 0xB nnn) = .instr (.jpV0 nnn) ∧
    (∃ t, exec (.jp nnn) s = .next t ∧ t.pc.toNat = nnn.toNat ∧ SameBut [.pc] s t) ∧
    (∃ t, exec (.jpV0 nnn) s = .next t ∧ t.pc.toNat = nnn.toNat + (s.getV 0).toNat ∧ SameBut [.pc] s t)

/-- R83, R84: the skips on an immediate, their words and their effect; and the effect of R85, R86, the skips on two registers, whose words with
n ≠ 0 are illegal (`IllegalWordsAreTheListedOnes`). -/
def Obligations.SkipsAddTwoWhenTheConditionHolds : Prop :=
  ∀ (x y : Reg) (kk : Byte) (s : State),
    decodeWord (wordXkk 0x3 x kk) = .instr (.seImm x kk) ∧ decodeWord (wordXkk 0x4 x kk) = .instr (.sneImm x kk) ∧
    (∃ t, exec (.seImm x kk) s = .next t ∧ t.pc = (if s.getV x = kk then s.pc + 2 else s.pc) ∧ SameBut [.pc] s t) ∧
    (∃ t, exec (.sneImm x kk) s = .next t ∧ t.pc = (if s.getV x ≠ kk then s.pc + 2 else s.pc) ∧ SameBut [.pc] s t) ∧
    (∃ t, exec (.seReg x y) s = .next t ∧ t.pc = (if s.getV x = s.getV y then s.pc + 2 else s.pc) ∧ SameBut [.pc] s t) ∧
    (∃ t, exec (.sneReg x y) s = .next t ∧ t.pc = (if s.getV x ≠ s.getV y then s.pc + 2 else s.pc) ∧ SameBut [.pc] s t)

/-- R82: a call with room on the stack pushes PC, which the fetch has advanced past the call, and jumps. With a full stack it raises
StackOverflow and only ERR changes: that the failing call is a next state with ERR latched is the spec's decision D2 (log 2), and that nothing else
changes its decision D3 (log 11). -/
def Obligations.CallPushesPcOrOverflows : Prop :=
  ∀ (nnn : BitVec 12) (s : State),
    (∀ j : Fin 16, j.val = s.sp.val → ∃ t, exec (.call nnn) s = .next t ∧ t.pc.toNat = nnn.toNat ∧
      t.sp.val = s.sp.val + 1 ∧ t.stack[j] = s.pc ∧ (∀ k : Fin 16, k ≠ j → t.stack[k] = s.stack[k]) ∧
      SameBut [.pc, .sp, .stack] s t) ∧
    (s.sp.val = 16 → ∃ t, exec (.call nnn) s = .next t ∧ t.err = some .stackOverflow ∧ SameBut [.err] s t)

/-- R80: a return pops the top of the stack into PC, the slot keeping its value. With an empty stack it raises StackUnderflow and only ERR
changes: the latch is the spec's decision D2 (log 2), that nothing else changes its decision D3 (log 11), the slot kept its decision D27 (log 18). -/
def Obligations.ReturnPopsPcOrUnderflows : Prop :=
  ∀ s : State,
    (∀ j : Fin 16, j.val + 1 = s.sp.val → ∃ t, exec .ret s = .next t ∧ t.pc = s.stack[j] ∧ t.sp.val + 1 = s.sp.val ∧
      SameBut [.pc, .sp] s t) ∧
    (s.sp.val = 0 → ∃ t, exec .ret s = .next t ∧ t.err = some .stackUnderflow ∧ SameBut [.err] s t)

/-- R82, R14: a return executed anywhere in the subroutine, with SP and the stack as the call left them, comes back to the instruction
after the call and to the SP before it. -/
def Obligations.ReturnComesBackAfterTheCall : Prop :=
  ∀ (nnn : BitVec 12) (s t u : State), s.sp.val < 16 → exec (.call nnn) s = .next t → u.sp = t.sp → u.stack = t.stack →
    ∃ u', exec .ret u = .next u' ∧ u'.pc = s.pc ∧ u'.sp = s.sp ∧ SameBut [.pc, .sp] u u'

/-- R171: with no fault latched a call raises StackOverflow exactly when SP is 16 before the push; and from an empty stack any 16 nested calls
succeed, and the 17th fails with StackOverflow. That the failing call is a next state with ERR latched is the spec's decision D2, shown by
the model's choice of outcomes (log 2). -/
def Obligations.SixteenNestedCallsThenOverflow : Prop :=
  (∀ (nnn : BitVec 12) (s : State), s.err = none →
    ∃ t, exec (.call nnn) s = .next t ∧ (t.err = some .stackOverflow ↔ s.sp.val = 16)) ∧
  (∀ (targets : List (BitVec 12)) (nnn : BitVec 12) (s : State), targets.length = 16 → s.sp.val = 0 → s.err = none →
    ∃ t u, callAll targets s = .next t ∧ t.err = none ∧ t.sp.val = 16 ∧
      exec (.call nnn) t = .next u ∧ u.err = some .stackOverflow)

/-! ## Immediate and register ALU -/

/-- R100, R101, R103, R104, R105: load and add immediate, OR, AND, XOR, their words and their effect. Only Vx is written; the carry is lost and VF is not touched unless it is
Vx. -/
def Obligations.ImmediateAndLogicWriteVx : Prop :=
  ∀ (x y : Reg) (kk : Byte) (s : State),
    decodeWord (wordXkk 0x6 x kk) = .instr (.ldImm x kk) ∧ decodeWord (wordXkk 0x7 x kk) = .instr (.addImm x kk) ∧
    decodeWord (wordXyn 0x8 x y 0x1) = .instr (.orReg x y) ∧ decodeWord (wordXyn 0x8 x y 0x2) = .instr (.andReg x y) ∧
    decodeWord (wordXyn 0x8 x y 0x3) = .instr (.xorReg x y) ∧
    (∃ t, exec (.ldImm x kk) s = .next t ∧ t.getV x = kk ∧ RegsSameBut [x] s t ∧ SameBut [.v] s t) ∧
    (∃ t, exec (.addImm x kk) s = .next t ∧ (t.getV x).toNat = ((s.getV x).toNat + kk.toNat) % 256 ∧
      RegsSameBut [x] s t ∧ SameBut [.v] s t) ∧
    (∃ t, exec (.orReg x y) s = .next t ∧ t.getV x = s.getV x ||| s.getV y ∧ RegsSameBut [x] s t ∧ SameBut [.v] s t) ∧
    (∃ t, exec (.andReg x y) s = .next t ∧ t.getV x = s.getV x &&& s.getV y ∧ RegsSameBut [x] s t ∧ SameBut [.v] s t) ∧
    (∃ t, exec (.xorReg x y) s = .next t ∧ t.getV x = s.getV x ^^^ s.getV y ∧ RegsSameBut [x] s t ∧ SameBut [.v] s t)

/-- R102: the copy. Its direction, Vy into Vx, is the spec's statement from general knowledge G6 (log 14). -/
def Obligations.CopyMovesVyIntoVx : Prop :=
  ∀ (x y : Reg) (s : State),
    ∃ t, exec (.ldReg x y) s = .next t ∧ t.getV x = s.getV y ∧ RegsSameBut [x] s t ∧ SameBut [.v] s t

/-- R106, R107, R109, R111, R112: add, subtract and reverse subtract, for every x and y. The flag is in VF and comes from the operands before
the instruction; the result is in Vx, but for x = F, where the flag remains: that clause is the spec's decision D5 (log 5). -/
def Obligations.AddAndSubtractWriteResultThenFlag : Prop :=
  ∀ (x y : Reg) (s : State),
    (∃ t, exec (.addReg x y) s = .next t ∧
      (x ≠ VF → (t.getV x).toNat = ((s.getV x).toNat + (s.getV y).toNat) % 256) ∧
      t.getV VF = (if (s.getV x).toNat + (s.getV y).toNat > 255 then 1 else 0) ∧
      RegsSameBut [x, VF] s t ∧ SameBut [.v] s t) ∧
    (∃ t, exec (.subReg x y) s = .next t ∧
      (x ≠ VF → (t.getV x).toNat = ((s.getV x).toNat + 256 - (s.getV y).toNat) % 256) ∧
      t.getV VF = (if (s.getV x).toNat > (s.getV y).toNat then 1 else 0) ∧
      RegsSameBut [x, VF] s t ∧ SameBut [.v] s t) ∧
    (∃ t, exec (.subnReg x y) s = .next t ∧
      (x ≠ VF → (t.getV x).toNat = ((s.getV y).toNat + 256 - (s.getV x).toNat) % 256) ∧
      t.getV VF = (if (s.getV y).toNat > (s.getV x).toNat then 1 else 0) ∧
      RegsSameBut [x, VF] s t ∧ SameBut [.v] s t)

/-- R108, R110: the shifts by one. That Vx is shifted in place and y ignored is the spec's decision D6 (log 4); that the flag remains for
x = F its decision D5 (log 5). -/
def Obligations.ShiftsMoveTheBitOutIntoVf : Prop :=
  ∀ (x y : Reg) (s : State),
    (∃ t, exec (.shr x y) s = .next t ∧ (x ≠ VF → (t.getV x).toNat = (s.getV x).toNat / 2) ∧
      (t.getV VF).toNat = (s.getV x).toNat % 2 ∧ RegsSameBut [x, VF] s t ∧ SameBut [.v] s t) ∧
    (∃ t, exec (.shl x y) s = .next t ∧ (x ≠ VF → (t.getV x).toNat = (s.getV x).toNat * 2 % 256) ∧
      (t.getV VF).toNat = (s.getV x).toNat / 128 ∧ RegsSameBut [x, VF] s t ∧ SameBut [.v] s t)

/-- R12, R28: a flag-defining instruction that did not fault leaves 0 or 1 in VF; and every instruction leaves alone each register that it
does not name as its destination, VF excepted where it defines a flag. -/
def Obligations.RegistersWrittenOnlyAsTheTableSays : Prop :=
  ∀ (i : Instr) (s t : State), exec i s = .next t →
    (Instr.definesFlag i = true → s.err = none → t.err = none → t.getV VF = 0 ∨ t.getV VF = 1) ∧
    (∀ r, Instr.isDest r i = false → (Instr.definesFlag i = false ∨ r ≠ VF) → t.getV r = s.getV r)

/-! ## Index and memory -/

/-- R120, R121, R122: the three instructions that write I, their words and their effect. No flag, no fault. -/
def Obligations.IndexInstructionsSetI : Prop :=
  ∀ (nnn : BitVec 12) (x : Reg) (s : State),
    decodeWord (wordNnn 0xA nnn) = .instr (.ldI nnn) ∧ decodeWord (wordXkk 0xF x 0x1E) = .instr (.addI x) ∧
    decodeWord (wordXkk 0xF x 0x29) = .instr (.ldF x) ∧
    (∃ t, exec (.ldI nnn) s = .next t ∧ t.i.toNat = nnn.toNat ∧ SameBut [.i] s t) ∧
    (∃ t, exec (.addI x) s = .next t ∧ t.i.toNat = (s.i.toNat + (s.getV x).toNat) % 4096 ∧ SameBut [.i] s t) ∧
    (∃ t, exec (.ldF x) s = .next t ∧ t.i.toNat = (s.getV x).toNat * 5 ∧ SameBut [.i] s t)

/-- R123: the decimal digits of Vx are stored at I, I + 1, I + 2, or, with I at 4094 or 4095, nothing is written and OutOfBounds(Mem, 4096) is
raised. Payload, latch and the rest unchanged are the spec's decisions D1, D2, D3 (logs 10, 2, 11). -/
def Obligations.DecimalDigitsAreStoredAtI : Prop :=
  ∀ (x : Reg) (s : State), s.mem.wf = true →
    (s.effAddr 2 ≤ 4095 → ∃ t, exec (.ldB x) s = .next t ∧
      (t.mem.read (s.effAddr 0)).toNat = (s.getV x).toNat / 100 ∧
      (t.mem.read (s.effAddr 1)).toNat = (s.getV x).toNat / 10 % 10 ∧
      (t.mem.read (s.effAddr 2)).toNat = (s.getV x).toNat % 10 ∧
      MemSameOutside (s.effAddr 0) 3 s t ∧ SameBut [.mem] s t) ∧
    (s.i.toNat ≤ 4095 → 4095 < s.effAddr 2 → ∃ t, exec (.ldB x) s = .next t ∧
      t.err = some (.outOfBounds .mem 4096) ∧ SameBut [.err] s t)

/-- R124: V0 to Vx are stored at I to I + x, or, with I + x above 4095, nothing is written and OutOfBounds(Mem, 4096) is raised.
Payload, latch and the rest unchanged are the spec's decisions D1, D2, D3 (logs 10, 2, 11). -/
def Obligations.RegistersAreStoredAtI : Prop :=
  ∀ (x : Reg) (s : State), s.mem.wf = true →
    (s.effAddr x.val ≤ 4095 → ∃ t, exec (.storeRegs x) s = .next t ∧
      (∀ r : Reg, r ≤ x → t.mem.read (s.effAddr r.val) = s.getV r) ∧
      MemSameOutside (s.effAddr 0) (x.val + 1) s t ∧ SameBut [.mem] s t) ∧
    (s.i.toNat ≤ 4095 → 4095 < s.effAddr x.val → ∃ t, exec (.storeRegs x) s = .next t ∧
      t.err = some (.outOfBounds .mem 4096) ∧ SameBut [.err] s t)

/-- R125: the bytes at I to I + x are loaded into V0 to Vx, the registers above Vx unchanged, or, with I + x above 4095, no register is written
and OutOfBounds(Mem, 4096) is raised. Payload, latch and the rest unchanged are the spec's decisions D1, D2, D3 (logs 10, 2, 11). -/
def Obligations.RegistersAreLoadedFromI : Prop :=
  ∀ (x : Reg) (s : State),
    (s.effAddr x.val ≤ 4095 → ∃ t, exec (.loadRegs x) s = .next t ∧
      (∀ r : Reg, r ≤ x → t.getV r = s.mem.read (s.effAddr r.val)) ∧ (∀ r : Reg, x < r → t.getV r = s.getV r) ∧
      SameBut [.v] s t) ∧
    (s.i.toNat ≤ 4095 → 4095 < s.effAddr x.val → ∃ t, exec (.loadRegs x) s = .next t ∧
      t.err = some (.outOfBounds .mem 4096) ∧ SameBut [.err] s t)

/-- R124, R125, R126: registers stored and then loaded again with the same x come back, whatever the registers held in between, since I is not
changed by either. -/
def Obligations.LoadAfterStoreRestoresRegisters : Prop :=
  ∀ (x : Reg) (s t : State) (v : Vector Byte 16), s.mem.wf = true → s.effAddr x.val ≤ 4095 →
    exec (.storeRegs x) s = .next t →
    ∃ u, exec (.loadRegs x) { t with v := v } = .next u ∧ u.i = s.i ∧ (∀ r : Reg, r ≤ x → u.getV r = s.getV r)

/-- R45, R54: two bytes stored by `Fx55` are what a fetch at I reads next, V0 as the high byte. The rule is derived in the spec from its one
flat memory. -/
def Obligations.StoredBytesAreFetched : Prop :=
  ∀ (x : Reg) (s t : State), s.mem.wf = true → 1 ≤ x.val → s.effAddr x.val ≤ 4095 → exec (.storeRegs x) s = .next t →
    ({ t with pc := t.i } : State).fetchWord = s.getV 0 ++ s.getV 1

/-! ## Display -/

/-- R140: the clear, word 0x00E0. Every pixel is 0 and DRAW is 1 whatever was lit; VF is not written. -/
def Obligations.ClearBlanksTheFramebuffer : Prop :=
  decodeWord 0x00E0 = .instr .cls ∧
  ∀ s : State, ∃ t, exec .cls s = .next t ∧ (∀ r c, t.fb.pixel r c = false) ∧ t.draw = true ∧ SameBut [.fb, .draw] s t

/-- R141 to R144, R48: a draw whose bytes lie below 4096 inverts exactly the pixels its set bits cover, wrapped at both edges; VF is 1 exactly
when one of them was lit, else 0; DRAW is set when there is one and else kept; nothing else changes. Otherwise OutOfBounds(Mem, 4096) is raised and
nothing else changes. The bit order and the read of Vx and Vy before VF is reset are the spec's decision D7 (log 13); payload, latch and
all-or-nothing its decisions D1, D2, D3 (logs 10, 2, 11). -/
def Obligations.DrawInvertsExactlyTheCoveredPixels : Prop :=
  ∀ (x y : Reg) (n : BitVec 4) (s : State),
    ((n = 0 ∨ s.effAddr n.toNat ≤ 4096) → ∃ t, exec (.drw x y n) s = .next t ∧
      (∀ r c, SpriteCovers s x y n.toNat r c → t.fb.pixel r c = !s.fb.pixel r c) ∧
      (∀ r c, ¬ SpriteCovers s x y n.toNat r c → t.fb.pixel r c = s.fb.pixel r c) ∧
      (t.getV VF = 1 ↔ ∃ r c, SpriteCovers s x y n.toNat r c ∧ s.fb.pixel r c = true) ∧
      (t.getV VF = 0 ∨ t.getV VF = 1) ∧
      (t.draw = true ↔ s.draw = true ∨ ∃ r c, SpriteCovers s x y n.toNat r c) ∧
      RegsSameBut [VF] s t ∧ SameBut [.v, .fb, .draw] s t) ∧
    (n ≠ 0 → s.i.toNat ≤ 4095 → 4096 < s.effAddr n.toNat → ∃ t, exec (.drw x y n) s = .next t ∧
      t.err = some (.outOfBounds .mem 4096) ∧ SameBut [.err] s t)

/-- R143, C2: the same draw done twice, with the registers as they were before the first, puts every pixel back. VF after the second is 1
exactly when the sprite covers a pixel that was dark before the first, since the first draw lit it. Bit order and read order are the spec's
decision D7 (log 13). -/
def Obligations.SecondIdenticalDrawErases : Prop :=
  ∀ (x y : Reg) (n : BitVec 4) (s t : State), (n = 0 ∨ s.effAddr n.toNat ≤ 4096) → exec (.drw x y n) s = .next t →
    ∃ u, exec (.drw x y n) { t with v := s.v } = .next u ∧ u.fb = s.fb ∧
      (u.getV VF = 1 ↔ ∃ r c, SpriteCovers s x y n.toNat r c ∧ s.fb.pixel r c = false)

/-! ## Random, keys, timers -/

/-- R150: the random byte under the mask kk, whatever that byte is. One byte is drawn from the source; the count of draws is the model's own
field (log 1). -/
def Obligations.RandomByteIsMasked : Prop :=
  ∀ (x : Reg) (kk : Byte) (s : State), decodeWord (wordXkk 0xC x kk) = .instr (.rnd x kk) ∧ ∃ t, exec (.rnd x kk) s = .next t ∧
    t.getV x = Config.randomByte s.draws &&& kk ∧ RegsSameBut [x] s t ∧ t.draws = s.draws + 1 ∧ SameBut [.v, .draws] s t

/-- R151, R152: the key skips on a key 0 to 15 by its level, and OutOfBounds(Key, Vx) for Vx above 15: the fault is the
spec's decision D8 (log 6), the latch and the rest unchanged its decisions D2 and D3 (logs 2 and 11). -/
def Obligations.KeySkipsTestTheLevel : Prop :=
  ∀ (x : Reg) (s : State),
    (∀ k : Fin 16, (s.getV x).toNat = k.val →
      (∃ t, exec (.skp x) s = .next t ∧ t.pc = (if s.key[k] = true then s.pc + 2 else s.pc) ∧ SameBut [.pc] s t) ∧
      (∃ t, exec (.sknp x) s = .next t ∧ t.pc = (if s.key[k] = false then s.pc + 2 else s.pc) ∧ SameBut [.pc] s t)) ∧
    (15 < (s.getV x).toNat →
      (∃ t, exec (.skp x) s = .next t ∧ t.err = some (.outOfBounds .key (s.getV x).toNat) ∧ SameBut [.err] s t) ∧
      (∃ t, exec (.sknp x) s = .next t ∧ t.err = some (.outOfBounds .key (s.getV x).toNat) ∧ SameBut [.err] s t))

/-- R154: with some key down, the least of them goes to Vx and execution proceeds; with none, PC goes back by 2 and nothing else changes, so
that a STEP which finds the instruction at PC returns with the whole state unchanged. -/
def Obligations.KeyWaitTakesTheLowestKeyOrRewinds : Prop :=
  ∀ (x : Reg) (s : State), decodeWord (wordXkk 0xF x 0x0A) = .instr (.ldVxK x) ∧
    (∀ k : Fin 16, s.key[k] = true → (∀ j : Fin 16, j < k → s.key[j] = false) →
      ∃ t, exec (.ldVxK x) s = .next t ∧ (t.getV x).toNat = k.val ∧ RegsSameBut [x] s t ∧ SameBut [.v] s t) ∧
    ((∀ k : Fin 16, s.key[k] = false) → ∃ t, exec (.ldVxK x) s = .next t ∧ t.pc = s.pc - 2 ∧ SameBut [.pc] s t) ∧
    (s.err = none → s.pc.toNat ≤ 4094 → decodeWord s.fetchWord = .instr (.ldVxK x) → (∀ k : Fin 16, s.key[k] = false) →
      step s = .next s)

/-- R153, R155, R156: the timer instructions. Which of the three does what is the spec's decision D9, from general knowledge G4 (log 14). -/
def Obligations.TimerInstructionsCopy : Prop :=
  ∀ (x : Reg) (s : State),
    (∃ t, exec (.ldVxDt x) s = .next t ∧ t.getV x = s.dt ∧ RegsSameBut [x] s t ∧ SameBut [.v] s t) ∧
    (∃ t, exec (.ldDtVx x) s = .next t ∧ t.dt = s.getV x ∧ SameBut [.dt] s t) ∧
    (∃ t, exec (.ldStVx x) s = .next t ∧ t.st = s.getV x ∧ SameBut [.st] s t)

/-! ## The whole machine -/

/-- R10, the column 'written by': an executed instruction changes no element that the table does not let it write. -/
def Obligations.ElementsWrittenOnlyAsTheTableSays : Prop :=
  ∀ (i : Instr) (s t : State), exec i s = .next t → SameBut (Instr.writes i) s t

/-- R170 to R174, R177: every instruction answers a next state, and from ERR = None it raises a fault in exactly the listed cases. The names
and payloads of OutOfBounds are the spec's decisions D1 and D8 (logs 10 and 6), the latch its decision D2 (log 2). -/
def Obligations.InstructionsRaiseOnlyTheListedFaults : Prop :=
  ∀ (i : Instr) (s : State), s.err = none → s.i.toNat ≤ 4095 → ∃ t, exec i s = .next t ∧ ∀ f, t.err = some f ↔
    ((∃ nnn, i = .call nnn) ∧ s.sp.val = 16 ∧ f = .stackOverflow) ∨
    (i = .ret ∧ s.sp.val = 0 ∧ f = .stackUnderflow) ∨
    ((∃ x y n, i = .drw x y n ∧ 0 < n.toNat ∧ 4096 < s.effAddr n.toNat) ∧ f = .outOfBounds .mem 4096) ∨
    ((∃ x, i = .ldB x ∧ 4095 < s.effAddr 2) ∧ f = .outOfBounds .mem 4096) ∨
    ((∃ x, (i = .storeRegs x ∨ i = .loadRegs x) ∧ 4095 < s.effAddr x.val) ∧ f = .outOfBounds .mem 4096) ∨
    (∃ x, (i = .skp x ∨ i = .sknp x) ∧ 15 < (s.getV x).toNat ∧ f = .outOfBounds .key (s.getV x).toNat)

/-- R179: a STEP that raises a fault changes ERR and at most PC: PC is unchanged for a fault of the fetch and is the address of the faulting
instruction plus 2 for every other. The spec's decisions D3 (log 11) and, for
the latch, D2 (log 2). -/
def Obligations.FaultsArePrecise : Prop :=
  ∀ (s t : State) (f : Fault), s.err = none → step s = .next t → t.err = some f →
    t.pc = (if 4095 ≤ s.pc.toNat then s.pc else s.pc + 2) ∧ SameBut [.pc, .err] s t

/-- R181, R191: with a fault latched, RESET and a successful LOAD clear it and no other event does. The spec's decisions D2 (log 2), D12 (log 9)
and D25 (log 15). -/
def Obligations.OnlyResetAndLoadClearAFault : Prop :=
  ∀ (s : State) (f : Fault) (e : Event), s.err = some f →
    ((e = .reset ∨ ∃ bytes, e = .load bytes ∧ bytes.length ≤ 3584) → (s.apply e).2.err = none) ∧
    ((e ≠ .reset ∧ ∀ bytes, e = .load bytes → 3584 < bytes.length) → (s.apply e).2.err = some f)

/-- R17, R20: no instruction reads ST or DRAW. Two states that differ in nothing else behave the same, ST and DRAW apart, GIVEN THE SAME RANDOM
BYTE: the two states agree on `draws` too, so both STEPs are given one byte, as if R60's STEP(rnd) had the same argument in both. That the byte
comes from the count of draws is the model's choice (log 1), and the statement says nothing about two STEPs given different bytes. -/
def Obligations.NoInstructionReadsStOrDraw : Prop :=
  ∀ s s' : State, s.hideOutputs = s'.hideOutputs → SameUpTo State.hideOutputs (step s) (step s')

/-- R213: in a quiescent state every STEP leaves the whole state unchanged. Quiescence is the spec's own convention D24. -/
def Obligations.QuiescentStateIsAFixedPoint : Prop :=
  ∀ s : State, s.quiescent → step s = .next s

/-- The invariant holds after RESET. -/
def Obligations.ResetMeetsTheInvariant : Prop := Inv State.reset

/-- R13, R15, R16, R27: every STEP keeps the invariant: canonical memory, I below 4096, PC at most 0x10FE, and return addresses in use at most
4098. -/
def Obligations.StepKeepsTheInvariant : Prop := ∀ s t : State, Inv s → step s = .next t → Inv t

/-- R5, R190: so does every event, hence every list of events in any order. -/
def Obligations.EveryInterleavingKeepsTheInvariant : Prop :=
  ∀ (s : State) (es : List Event), Inv s → Inv (s.runEvents es)

/-! ## Host events -/

/-- R184: TICK takes each nonzero counter down by 1, keeps a 0 at 0, and changes nothing else. Its result is 1 exactly when ST was 1. -/
def Obligations.TickDecrementsNonzeroCounters : Prop :=
  ∀ s : State, s.tick.2.dt.toNat = s.dt.toNat - 1 ∧ s.tick.2.st.toNat = s.st.toNat - 1 ∧
    (s.tick.1 = true ↔ s.st.toNat = 1) ∧ SameBut [.dt, .st] s s.tick.2

/-- R185, R186: over any number of TICKs the counters go down to 0 and stay, and the stop pulse fires once, on the TICK on which the sound level
drops, and never for a ST that was 0. The pulse as the result of TICK and the level are the spec's decision D16 (log 17). -/
def Obligations.SoundStopPulseFiresOnce : Prop :=
  ∀ (s : State) (n : Nat),
    (s.ticks n).dt.toNat = s.dt.toNat - n ∧ (s.ticks n).st.toNat = s.st.toNat - n ∧
    s.pulses n = (if 0 < s.st.toNat ∧ s.st.toNat ≤ n then 1 else 0) ∧
    (s.tick.1 = true ↔ s.soundLevel = true ∧ s.tick.2.soundLevel = false)

/-- R187: KEY_DOWN and KEY_UP set and clear one key, and are no-ops outside 0 to 15. -/
def Obligations.KeyEventsSetOneLevel : Prop :=
  ∀ (s : State) (k : Nat),
    (∀ j : Fin 16, (s.keyDown k).key[j] = (if j.val = k then true else s.key[j]) ∧
      (s.keyUp k).key[j] = (if j.val = k then false else s.key[j])) ∧
    SameBut [.key] s (s.keyDown k) ∧ SameBut [.key] s (s.keyUp k) ∧ (16 ≤ k → s.keyDown k = s ∧ s.keyUp k = s)

/-- R188, R189: TAKE_DRAW_FLAG returns and clears the flag; READ_FB returns the grid and changes nothing. -/
def Obligations.DrawFlagAndFramebufferAreRead : Prop :=
  ∀ s : State,
    (∃ t, s.apply .takeDrawFlag = (.drawFlag s.draw, t) ∧ t.draw = false ∧ SameBut [.draw] s t) ∧
    s.apply .readFb = (.frame s.fb, s)

/-- R201, R203, R204: after a successful LOAD memory is the glyph table, zeros, the program from 0x200 on and zeros after it; every other element is
at its reset value, but KEY, which is unchanged, and DRAW, which is 1. So the state is a function of the bytes and of KEY alone. The zeros, DRAW,
KEY and the rewrite of all memory are the spec's decisions D10, D11, D12 (logs 7, 8, 9). -/
def Obligations.LoadGivesTheLaunchState : Prop :=
  ∀ (s : State) (bytes : List Byte), bytes.length ≤ 3584 → ∃ t, s.load bytes = (.ok, t) ∧ t.mem.wf = true ∧
    (∀ a, a < 80 → t.mem.read a = Config.chosen.glyphs.getD a 0) ∧ (∀ a, 80 ≤ a → a < 0x200 → t.mem.read a = 0) ∧
    (∀ (j : Nat) (h : j < bytes.length), t.mem.read (0x200 + j) = bytes[j]) ∧
    (∀ a, 0x200 + bytes.length ≤ a → t.mem.read a = 0) ∧
    t.draw = true ∧ t.key = s.key ∧ SameBut [.mem, .key, .draw, .draws] State.reset t

/-- R202, R175: a LOAD of more than 3584 bytes fails with RomTooLarge and changes nothing. -/
def Obligations.TooLargeLoadChangesNothing : Prop :=
  ∀ (s : State) (bytes : List Byte), 3584 < bytes.length → s.apply (.load bytes) = (.loaded .romTooLarge, s)

/-- R205: after a successful LOAD the first STEP executes the first two bytes of the ROM, at 0x200. -/
def Obligations.LoadedProgramRunsFromItsFirstWord : Prop :=
  ∀ (s : State) (hi lo : Byte) (rest : List Byte) (i : Instr), (hi :: lo :: rest).length ≤ 3584 →
    decodeWord (hi ++ lo) = .instr i →
    step (s.load (hi :: lo :: rest)).2 = exec i { (s.load (hi :: lo :: rest)).2 with pc := 0x202 }

/-- R200: RESET on any state gives the reset state; the count of random draws, which is the model's own field, goes on (log 1). The reset values
are the spec's decision D10 (log 7). -/
def Obligations.ResetEventGivesTheResetState : Prop :=
  ∀ s : State, ∃ t, s.apply .reset = (.none, t) ∧ t.draws = s.draws ∧ SameBut [.draws] State.reset t

/-- R206: a STEP after RESET alone fetches 0x0000 and raises UnknownOpcode(0x0000), PC at 0x202. The instance at RESET of the general
`StepLatchesUnknownOpcode`. The zero bytes are the spec's decision D10 (logs 7 and 16), the illegality of 0x0000 its decision D4 (log 12), the latch
its decision D2 (log 2), PC = 0x202 and the rest unchanged its decision D3 (log 11). -/
def Obligations.StepAfterResetAloneFaults : Prop :=
  ∃ t, step State.reset = .next t ∧ t.err = some (.unknownOpcode 0x0000) ∧ t.pc = 0x202 ∧ SameBut [.pc, .err] State.reset t
end

