-- ==== Sys2Proof/Laws/Decode.lean ====
section
/-! SUPPORT. The fields of a word and the words of the formats as numbers, so that a claim about encodings becomes arithmetic. -/

namespace Sys2Proof

theorem fieldOp_eq (w : Word) : fieldOp w = w.toNat / 4096 := by
  have := w.isLt
  simp only [fieldOp, BitVec.extractLsb'_toNat, Nat.shiftRight_eq_div_pow]
  omega

theorem fieldX_val (w : Word) : (fieldX w).val = w.toNat / 256 % 16 := by
  simp [fieldX, Nat.shiftRight_eq_div_pow]

theorem fieldY_val (w : Word) : (fieldY w).val = w.toNat / 16 % 16 := by
  simp [fieldY, Nat.shiftRight_eq_div_pow]

theorem fieldN_toNat (w : Word) : (fieldN w).toNat = w.toNat % 16 := by simp [fieldN]

theorem fieldKk_toNat (w : Word) : (fieldKk w).toNat = w.toNat % 256 := by simp [fieldKk]

theorem fieldNnn_toNat (w : Word) : (fieldNnn w).toNat = w.toNat % 4096 := by simp [fieldNnn]

theorem fieldOp_lt (w : Word) : fieldOp w < 16 := (w.extractLsb' 12 4).isLt

theorem formatNnn_toNat {op : Nat} (h : op < 16) (nnn : BitVec 12) : (formatNnn op nnn).toNat = op * 4096 + nnn.toNat := by
  have := nnn.isLt
  simp only [formatNnn, BitVec.toNat_ofNat]; omega

theorem formatXkk_toNat {op : Nat} (h : op < 16) (x : Reg) (kk : Byte) :
    (formatXkk op x kk).toNat = op * 4096 + x.val * 256 + kk.toNat := by
  have := kk.isLt
  simp only [formatXkk, BitVec.toNat_ofNat]; omega

theorem formatXy_toNat {op f : Nat} (h : op < 16) (hf : f < 16) (x y : Reg) :
    (formatXy op x y f).toNat = op * 4096 + x.val * 256 + y.val * 16 + f := by
  simp only [formatXy, BitVec.toNat_ofNat]; omega

theorem formatXyn_toNat {op : Nat} (h : op < 16) (x y : Reg) (n : BitVec 4) :
    (formatXyn op x y n).toNat = op * 4096 + x.val * 256 + y.val * 16 + n.toNat := by
  have := n.isLt
  simp only [formatXyn, BitVec.toNat_ofNat]; omega

theorem formatX_toNat {op ff : Nat} (h : op < 16) (hf : ff < 256) (x : Reg) :
    (formatX op x ff).toNat = op * 4096 + x.val * 256 + ff := by
  simp only [formatX, BitVec.toNat_ofNat]; omega

theorem wordOfBytes_toNat (hi lo : Byte) : (wordOfBytes hi lo).toNat = hi.toNat * 256 + lo.toNat := by
  have := lo.isLt
  simp only [wordOfBytes, BitVec.toNat_append]
  rw [← Nat.shiftLeft_add_eq_or_of_lt (by omega), Nat.shiftLeft_eq]

theorem highByte_toNat (w : Word) : (highByte w).toNat = w.toNat / 256 := by
  have := w.isLt
  simp only [highByte, BitVec.extractLsb'_toNat, Nat.shiftRight_eq_div_pow]; omega

theorem lowByte_toNat (w : Word) : (lowByte w).toNat = w.toNat % 256 := by simp [lowByte]

/-- The bytes of a word put together again are the word (R45). -/
@[simp] theorem wordOfBytes_highByte_lowByte (w : Word) : wordOfBytes (highByte w) (lowByte w) = w := by
  apply BitVec.eq_of_toNat_eq
  rw [wordOfBytes_toNat, highByte_toNat, lowByte_toNat]; omega

/-- The decoder reads the two bytes at the head of its input and nothing else (R61). -/
theorem decodeBytes_encodeBytes (i : Instr) (rest : List Byte) :
    decodeBytes (encodeBytes i ++ rest) = decodeWord (encode i) := by
  simp [encodeBytes, decodeBytes]

/-- A 16-bit table word is the word itself. -/
theorem tableWord_16 (w : Word) : tableWord 16 w.toNat = w := by
  apply BitVec.eq_of_toNat_eq
  have := w.isLt
  simp only [tableWord, BitVec.toNat_ofNat]
  omega

/-! ## Masks: what a row of the opcode map fixes -/

/-- Mask 0xF000 keeps the family (R66). -/
theorem and_F000 (w : Word) : w &&& 0xF000 = w.extractLsb' 12 4 ++ 0#12 := by
  ext j hj
  simp only [BitVec.getElem_append]
  interval_cases j <;> simp

/-- Mask 0xF00F keeps the family and the function digit (R66). -/
theorem and_F00F (w : Word) : w &&& 0xF00F = w.extractLsb' 12 4 ++ (0#8 ++ w.extractLsb' 0 4) := by
  ext j hj
  simp only [BitVec.getElem_append]
  interval_cases j <;> simp

/-- Mask 0xF0FF keeps the family and the function byte (R66). -/
theorem and_F0FF (w : Word) : w &&& 0xF0FF = w.extractLsb' 12 4 ++ (0#4 ++ w.extractLsb' 0 8) := by
  ext j hj
  simp only [BitVec.getElem_append]
  interval_cases j <;> simp

/-- A word has the fixed bits of a row with mask 0xF000 exactly when it has the row's family. -/
theorem and_F000_eq_iff (w v : Word) (hv : v.toNat % 4096 = 0) : w &&& 0xF000 = v ↔ fieldOp w = fieldOp v := by
  have hw := w.isLt
  have hv' := v.isLt
  rw [and_F000, fieldOp_eq, fieldOp_eq, ← BitVec.toNat_inj]
  simp only [BitVec.toNat_append, BitVec.extractLsb'_toNat, BitVec.toNat_ofNat, Nat.shiftRight_eq_div_pow]
  rw [← Nat.shiftLeft_add_eq_or_of_lt (by omega), Nat.shiftLeft_eq]
  omega

/-- A word has the fixed bits of a row with mask 0xF00F exactly when it has the row's family and function digit. -/
theorem and_F00F_eq_iff (w v : Word) (hv : v.toNat / 16 % 256 = 0) :
    w &&& 0xF00F = v ↔ fieldOp w = fieldOp v ∧ (fieldN w).toNat = (fieldN v).toNat := by
  have hw := w.isLt
  have hv' := v.isLt
  rw [and_F00F, fieldOp_eq, fieldOp_eq, fieldN_toNat, fieldN_toNat, ← BitVec.toNat_inj]
  simp only [BitVec.toNat_append, BitVec.extractLsb'_toNat, BitVec.toNat_ofNat, Nat.shiftRight_eq_div_pow, Nat.zero_mod,
    Nat.zero_shiftLeft, Nat.zero_or]
  rw [← Nat.shiftLeft_add_eq_or_of_lt (by omega), Nat.shiftLeft_eq]
  omega

/-- A word has the fixed bits of a row with mask 0xF0FF exactly when it has the row's family and function byte. -/
theorem and_F0FF_eq_iff (w v : Word) (hv : v.toNat / 256 % 16 = 0) :
    w &&& 0xF0FF = v ↔ fieldOp w = fieldOp v ∧ (fieldKk w).toNat = (fieldKk v).toNat := by
  have hw := w.isLt
  have hv' := v.isLt
  rw [and_F0FF, fieldOp_eq, fieldOp_eq, fieldKk_toNat, fieldKk_toNat, ← BitVec.toNat_inj]
  simp only [BitVec.toNat_append, BitVec.extractLsb'_toNat, BitVec.toNat_ofNat, Nat.shiftRight_eq_div_pow, Nat.zero_mod,
    Nat.zero_shiftLeft, Nat.zero_or]
  rw [← Nat.shiftLeft_add_eq_or_of_lt (by omega), Nat.shiftLeft_eq]
  omega

end Sys2Proof
end

