-- ==== Sys2Proof/Laws/Memory.lean ====
section
/-! SUPPORT. The laws of the byte store: a read after a write, the canonical form and what keeps it, equal bytes are equal lists, the
bytes of a LOAD image. -/

namespace Sys2Proof.Machine

@[simp] theorem Memory.read_nil (a : Nat) : Memory.read [] a = Memory.background a := rfl

theorem Memory.read_cons (k : Nat) (c : Byte) (rest : Memory) (a : Nat) :
    Memory.read ((k, c) :: rest) a = if a = k then c else Memory.read rest a := rfl

/-- GLYPHS end at 79: every address from 80 on reads 0 unlisted (R24, R25). -/
theorem Memory.background_of_le {a : Nat} (h : 80 ≤ a) : Memory.background a = 0 := by
  have : Config.chosen.glyphs.length = 80 := by decide
  simp only [Memory.background, List.getD_eq_getElem?_getD]
  rw [List.getElem?_eq_none (by omega)]; rfl

/-! ## The canonical form -/

theorem Memory.wfFrom_cons (lo k : Nat) (c : Byte) (rest : Memory) :
    Memory.wfFrom lo ((k, c) :: rest) = true ↔
      lo ≤ k ∧ k < memSize ∧ c ≠ Memory.background k ∧ Memory.wfFrom (k + 1) rest = true := by
  simp [Memory.wfFrom, and_assoc]

theorem Memory.wfFrom_mono {lo lo' : Nat} (h : lo' ≤ lo) {m : Memory} (hm : Memory.wfFrom lo m = true) :
    Memory.wfFrom lo' m = true := by
  cases m with
  | nil => rfl
  | cons p rest =>
    obtain ⟨k, c⟩ := p
    rw [Memory.wfFrom_cons] at hm ⊢
    exact ⟨by omega, hm.2⟩

/-- Below its first possible address a canonical list lists nothing. -/
theorem Memory.read_of_lt {m : Memory} {lo a : Nat} (hm : Memory.wfFrom lo m = true) (h : a < lo) :
    m.read a = Memory.background a := by
  induction m generalizing lo with
  | nil => rfl
  | cons p rest ih =>
    obtain ⟨k, c⟩ := p
    rw [Memory.wfFrom_cons] at hm
    rw [Memory.read_cons, if_neg (by omega)]
    exact ih hm.2.2.2 (by omega)

@[simp] theorem Memory.wf_nil : Memory.wf [] = true := rfl

theorem Memory.wfFrom_write {m : Memory} {lo a : Nat} {b : Byte} (hm : Memory.wfFrom lo m = true) (hlo : lo ≤ a)
    (ha : a < memSize) : Memory.wfFrom lo (m.write a b) = true := by
  induction m generalizing lo with
  | nil =>
    simp only [Memory.write]
    split
    · rfl
    · exact (Memory.wfFrom_cons ..).2 ⟨hlo, ha, ‹_›, rfl⟩
  | cons p rest ih =>
    obtain ⟨k, c⟩ := p
    have h := (Memory.wfFrom_cons ..).1 hm
    simp only [Memory.write]
    split
    · split
      · exact hm
      · exact (Memory.wfFrom_cons ..).2 ⟨hlo, ha, ‹_›, (Memory.wfFrom_cons ..).2 ⟨by omega, h.2⟩⟩
    · split
      · subst a
        split
        · exact Memory.wfFrom_mono (by omega) h.2.2.2
        · exact (Memory.wfFrom_cons ..).2 ⟨hlo, ha, ‹_›, h.2.2.2⟩
      · exact (Memory.wfFrom_cons ..).2 ⟨h.1, h.2.1, h.2.2.1, ih h.2.2.2 (by omega)⟩

/-- A write inside the address space keeps the canonical form. -/
theorem Memory.wf_write {m : Memory} {a : Nat} {b : Byte} (hm : m.wf = true) (ha : a < memSize) :
    (m.write a b).wf = true := Memory.wfFrom_write hm (Nat.zero_le a) ha

/-- Writes of consecutive bytes inside the address space keep the canonical form. -/
theorem Memory.wf_writeBytes {bs : List Byte} {m : Memory} {a : Nat} (hm : m.wf = true) (h : a + bs.length ≤ memSize) :
    (m.writeBytes a bs).wf = true := by
  induction bs generalizing m a with
  | nil => exact hm
  | cons b bs ih =>
    simp only [List.length_cons] at h
    exact ih (Memory.wf_write hm (by omega)) (by omega)

/-! ## A read after a write -/

/-- A write leaves every other address alone, in any memory. -/
theorem Memory.read_write_of_ne {m : Memory} {a a' : Nat} {b : Byte} (h : a' ≠ a) : (m.write a b).read a' = m.read a' := by
  induction m with
  | nil =>
    simp only [Memory.write]
    split
    · rfl
    · simp [Memory.read_cons, h]
  | cons p rest ih =>
    obtain ⟨k, c⟩ := p
    simp only [Memory.write]
    split
    · split
      · rfl
      · simp [Memory.read_cons, h]
    · split
      · subst a
        split <;> simp [Memory.read_cons, h]
      · simp [Memory.read_cons, ih]

theorem Memory.read_write_self_from {m : Memory} {lo a : Nat} {b : Byte} (hm : Memory.wfFrom lo m = true) :
    (m.write a b).read a = b := by
  induction m generalizing lo with
  | nil =>
    simp only [Memory.write]
    split
    · simp [*]
    · simp [Memory.read_cons]
  | cons p rest ih =>
    obtain ⟨k, c⟩ := p
    have h := (Memory.wfFrom_cons ..).1 hm
    simp only [Memory.write]
    split
    · split
      · rw [Memory.read_cons, if_neg (by omega), Memory.read_of_lt h.2.2.2 (by omega)]
        exact Eq.symm ‹_›
      · simp [Memory.read_cons]
    · split
      · subst a
        split
        · rw [Memory.read_of_lt h.2.2.2 (by omega)]
          exact Eq.symm ‹_›
        · simp [Memory.read_cons]
      · rw [Memory.read_cons, if_neg ‹_›]
        exact ih h.2.2.2

/-- A read of the address just written gives the byte written. -/
theorem Memory.read_write_self {m : Memory} {a : Nat} {b : Byte} (hm : m.wf = true) : (m.write a b).read a = b :=
  Memory.read_write_self_from hm

/-- Writes of consecutive bytes leave every address outside them alone, in any memory. -/
theorem Memory.read_writeBytes_outside {bs : List Byte} {m : Memory} {a a' : Nat} (h : a' < a ∨ a + bs.length ≤ a') :
    (m.writeBytes a bs).read a' = m.read a' := by
  induction bs generalizing m a with
  | nil => rfl
  | cons b bs ih =>
    simp only [List.length_cons] at h
    rw [Memory.writeBytes, ih (by omega), Memory.read_write_of_ne (by omega)]

/-- Writes of consecutive bytes inside the address space: each address reads its own byte. -/
theorem Memory.read_writeBytes_inside {bs : List Byte} {m : Memory} {a j : Nat} (hm : m.wf = true)
    (ha : a + bs.length ≤ memSize) (hj : j < bs.length) : (m.writeBytes a bs).read (a + j) = bs[j] := by
  induction bs generalizing m a j with
  | nil => simp at hj
  | cons b bs ih =>
    simp only [List.length_cons] at ha hj
    rw [Memory.writeBytes]
    cases j with
    | zero =>
      rw [Memory.read_writeBytes_outside (by omega)]
      exact Memory.read_write_self hm
    | succ j =>
      rw [show a + (j + 1) = a + 1 + j by omega, ih (Memory.wf_write hm (by omega)) (by omega) (by omega)]
      rfl

/-! ## Equal bytes are equal lists -/

theorem Memory.ext_from {m m' : Memory} {lo : Nat} (hm : Memory.wfFrom lo m = true) (hm' : Memory.wfFrom lo m' = true)
    (h : ∀ a, m.read a = m'.read a) : m = m' := by
  induction m generalizing lo m' with
  | nil =>
    cases m' with
    | nil => rfl
    | cons p rest =>
      obtain ⟨k, c⟩ := p
      have hk := (Memory.wfFrom_cons ..).1 hm'
      exact absurd (by simpa [Memory.read_cons] using (h k).symm) hk.2.2.1
  | cons p rest ih =>
    obtain ⟨k, c⟩ := p
    have hk := (Memory.wfFrom_cons ..).1 hm
    cases m' with
    | nil => exact absurd (by simpa [Memory.read_cons] using h k) hk.2.2.1
    | cons p' rest' =>
      obtain ⟨k', c'⟩ := p'
      have hk' := (Memory.wfFrom_cons ..).1 hm'
      have e : k = k' := by
        rcases Nat.lt_trichotomy k k' with hlt | heq | hgt
        · have := h k
          rw [Memory.read_cons, if_pos rfl, Memory.read_cons, if_neg (by omega),
            Memory.read_of_lt hk'.2.2.2 (by omega)] at this
          exact absurd this hk.2.2.1
        · exact heq
        · have := h k'
          rw [Memory.read_cons, if_neg (by omega), Memory.read_of_lt hk.2.2.2 (by omega), Memory.read_cons,
            if_pos rfl] at this
          exact absurd this.symm hk'.2.2.1
      subst e
      have ec : c = c' := by simpa [Memory.read_cons] using h k
      subst ec
      congr 1
      refine ih hk.2.2.2 hk'.2.2.2 fun a => ?_
      by_cases ha : a = k
      · subst ha
        rw [Memory.read_of_lt hk.2.2.2 (by omega), Memory.read_of_lt hk'.2.2.2 (by omega)]
      · simpa [Memory.read_cons, ha] using h a

/-- Two memories in canonical form that read the same everywhere are the same list. -/
theorem Memory.ext {m m' : Memory} (hm : m.wf = true) (hm' : m'.wf = true) (h : ∀ a, m.read a = m'.read a) : m = m' :=
  Memory.ext_from hm hm' h

/-! ## The image of a LOAD -/

theorem Memory.wfFrom_image {bs : List Byte} {a : Nat} (h : a + bs.length ≤ memSize) :
    Memory.wfFrom a (Memory.image a bs) = true := by
  induction bs generalizing a with
  | nil => rfl
  | cons b bs ih =>
    simp only [List.length_cons] at h
    simp only [Memory.image]
    split
    · exact Memory.wfFrom_mono (by omega) (ih (by omega))
    · exact (Memory.wfFrom_cons ..).2 ⟨Nat.le_refl a, by omega, ‹_›, ih (by omega)⟩

/-- The image of bytes that end inside the address space is canonical. -/
theorem Memory.wf_image {bs : List Byte} {a : Nat} (h : a + bs.length ≤ memSize) : (Memory.image a bs).wf = true :=
  Memory.wfFrom_mono (Nat.zero_le a) (Memory.wfFrom_image h)

/-- Outside its bytes the image reads as an unlisted address does. -/
theorem Memory.read_image_outside {bs : List Byte} {a a' : Nat} (h : a' < a ∨ a + bs.length ≤ a') :
    (Memory.image a bs).read a' = Memory.background a' := by
  induction bs generalizing a with
  | nil => rfl
  | cons b bs ih =>
    simp only [List.length_cons] at h
    simp only [Memory.image]
    split
    · exact ih (by omega)
    · rw [Memory.read_cons, if_neg (by omega), ih (by omega)]

/-- Each address of the image reads its own byte. -/
theorem Memory.read_image_inside {bs : List Byte} {a j : Nat} (hj : j < bs.length) :
    (Memory.image a bs).read (a + j) = bs[j] := by
  induction bs generalizing a j with
  | nil => simp at hj
  | cons b bs ih =>
    simp only [List.length_cons] at hj
    simp only [Memory.image]
    cases j with
    | zero =>
      split
      · rw [Memory.read_image_outside (by omega)]
        exact Eq.symm ‹_›
      · simp [Memory.read_cons]
    | succ j =>
      rw [show a + (j + 1) = a + 1 + j by omega]
      split
      · exact ih (by omega)
      · rw [Memory.read_cons, if_neg (by omega)]
        exact ih (by omega)

/-! ## Bytes read together -/

@[simp] theorem Memory.length_readBytes (m : Memory) (a n : Nat) : (m.readBytes a n).length = n := by
  simp [Memory.readBytes]

@[simp] theorem Memory.getElem_readBytes (m : Memory) (a n j : Nat) (h : j < (m.readBytes a n).length) :
    (m.readBytes a n)[j] = m.read (a + j) := by
  simp [Memory.readBytes]

end Sys2Proof.Machine
end

