-- ==== Sys2Proof/Laws/State.lean ====
section
/-! SUPPORT. One lemma per state element per update: what each update of Machine/Ops.lean leaves in each element, so that no later proof
unfolds a record update. -/

namespace Sys2Proof.Machine

variable (s : State)

/-! `State.setV` -/

@[simp] theorem State.mem_setV (x : Reg) (b : Byte) : (s.setV x b).mem = s.mem := rfl
@[simp] theorem State.v_setV (x : Reg) (b : Byte) : (s.setV x b).v = s.v.set x b := rfl
@[simp] theorem State.i_setV (x : Reg) (b : Byte) : (s.setV x b).i = s.i := rfl
@[simp] theorem State.pc_setV (x : Reg) (b : Byte) : (s.setV x b).pc = s.pc := rfl
@[simp] theorem State.stack_setV (x : Reg) (b : Byte) : (s.setV x b).stack = s.stack := rfl
@[simp] theorem State.sp_setV (x : Reg) (b : Byte) : (s.setV x b).sp = s.sp := rfl
@[simp] theorem State.dt_setV (x : Reg) (b : Byte) : (s.setV x b).dt = s.dt := rfl
@[simp] theorem State.st_setV (x : Reg) (b : Byte) : (s.setV x b).st = s.st := rfl
@[simp] theorem State.key_setV (x : Reg) (b : Byte) : (s.setV x b).key = s.key := rfl
@[simp] theorem State.fb_setV (x : Reg) (b : Byte) : (s.setV x b).fb = s.fb := rfl
@[simp] theorem State.draw_setV (x : Reg) (b : Byte) : (s.setV x b).draw = s.draw := rfl
@[simp] theorem State.err_setV (x : Reg) (b : Byte) : (s.setV x b).err = s.err := rfl
@[simp] theorem State.draws_setV (x : Reg) (b : Byte) : (s.setV x b).draws = s.draws := rfl

/-! `State.setI` -/

@[simp] theorem State.mem_setI (w : Word) : (s.setI w).mem = s.mem := rfl
@[simp] theorem State.v_setI (w : Word) : (s.setI w).v = s.v := rfl
@[simp] theorem State.i_setI (w : Word) : (s.setI w).i = w := rfl
@[simp] theorem State.pc_setI (w : Word) : (s.setI w).pc = s.pc := rfl
@[simp] theorem State.stack_setI (w : Word) : (s.setI w).stack = s.stack := rfl
@[simp] theorem State.sp_setI (w : Word) : (s.setI w).sp = s.sp := rfl
@[simp] theorem State.dt_setI (w : Word) : (s.setI w).dt = s.dt := rfl
@[simp] theorem State.st_setI (w : Word) : (s.setI w).st = s.st := rfl
@[simp] theorem State.key_setI (w : Word) : (s.setI w).key = s.key := rfl
@[simp] theorem State.fb_setI (w : Word) : (s.setI w).fb = s.fb := rfl
@[simp] theorem State.draw_setI (w : Word) : (s.setI w).draw = s.draw := rfl
@[simp] theorem State.err_setI (w : Word) : (s.setI w).err = s.err := rfl
@[simp] theorem State.draws_setI (w : Word) : (s.setI w).draws = s.draws := rfl
@[simp] theorem State.getV_setI (w : Word) (r : Reg) : (s.setI w).getV r = s.getV r := rfl

/-! `State.setPc` -/

@[simp] theorem State.mem_setPc (w : Word) : (s.setPc w).mem = s.mem := rfl
@[simp] theorem State.v_setPc (w : Word) : (s.setPc w).v = s.v := rfl
@[simp] theorem State.i_setPc (w : Word) : (s.setPc w).i = s.i := rfl
@[simp] theorem State.pc_setPc (w : Word) : (s.setPc w).pc = w := rfl
@[simp] theorem State.stack_setPc (w : Word) : (s.setPc w).stack = s.stack := rfl
@[simp] theorem State.sp_setPc (w : Word) : (s.setPc w).sp = s.sp := rfl
@[simp] theorem State.dt_setPc (w : Word) : (s.setPc w).dt = s.dt := rfl
@[simp] theorem State.st_setPc (w : Word) : (s.setPc w).st = s.st := rfl
@[simp] theorem State.key_setPc (w : Word) : (s.setPc w).key = s.key := rfl
@[simp] theorem State.fb_setPc (w : Word) : (s.setPc w).fb = s.fb := rfl
@[simp] theorem State.draw_setPc (w : Word) : (s.setPc w).draw = s.draw := rfl
@[simp] theorem State.err_setPc (w : Word) : (s.setPc w).err = s.err := rfl
@[simp] theorem State.draws_setPc (w : Word) : (s.setPc w).draws = s.draws := rfl
@[simp] theorem State.getV_setPc (w : Word) (r : Reg) : (s.setPc w).getV r = s.getV r := rfl

/-! `State.setDt` -/

@[simp] theorem State.mem_setDt (b : Byte) : (s.setDt b).mem = s.mem := rfl
@[simp] theorem State.v_setDt (b : Byte) : (s.setDt b).v = s.v := rfl
@[simp] theorem State.i_setDt (b : Byte) : (s.setDt b).i = s.i := rfl
@[simp] theorem State.pc_setDt (b : Byte) : (s.setDt b).pc = s.pc := rfl
@[simp] theorem State.stack_setDt (b : Byte) : (s.setDt b).stack = s.stack := rfl
@[simp] theorem State.sp_setDt (b : Byte) : (s.setDt b).sp = s.sp := rfl
@[simp] theorem State.dt_setDt (b : Byte) : (s.setDt b).dt = b := rfl
@[simp] theorem State.st_setDt (b : Byte) : (s.setDt b).st = s.st := rfl
@[simp] theorem State.key_setDt (b : Byte) : (s.setDt b).key = s.key := rfl
@[simp] theorem State.fb_setDt (b : Byte) : (s.setDt b).fb = s.fb := rfl
@[simp] theorem State.draw_setDt (b : Byte) : (s.setDt b).draw = s.draw := rfl
@[simp] theorem State.err_setDt (b : Byte) : (s.setDt b).err = s.err := rfl
@[simp] theorem State.draws_setDt (b : Byte) : (s.setDt b).draws = s.draws := rfl
@[simp] theorem State.getV_setDt (b : Byte) (r : Reg) : (s.setDt b).getV r = s.getV r := rfl

/-! `State.setSt` -/

@[simp] theorem State.mem_setSt (b : Byte) : (s.setSt b).mem = s.mem := rfl
@[simp] theorem State.v_setSt (b : Byte) : (s.setSt b).v = s.v := rfl
@[simp] theorem State.i_setSt (b : Byte) : (s.setSt b).i = s.i := rfl
@[simp] theorem State.pc_setSt (b : Byte) : (s.setSt b).pc = s.pc := rfl
@[simp] theorem State.stack_setSt (b : Byte) : (s.setSt b).stack = s.stack := rfl
@[simp] theorem State.sp_setSt (b : Byte) : (s.setSt b).sp = s.sp := rfl
@[simp] theorem State.dt_setSt (b : Byte) : (s.setSt b).dt = s.dt := rfl
@[simp] theorem State.st_setSt (b : Byte) : (s.setSt b).st = b := rfl
@[simp] theorem State.key_setSt (b : Byte) : (s.setSt b).key = s.key := rfl
@[simp] theorem State.fb_setSt (b : Byte) : (s.setSt b).fb = s.fb := rfl
@[simp] theorem State.draw_setSt (b : Byte) : (s.setSt b).draw = s.draw := rfl
@[simp] theorem State.err_setSt (b : Byte) : (s.setSt b).err = s.err := rfl
@[simp] theorem State.draws_setSt (b : Byte) : (s.setSt b).draws = s.draws := rfl
@[simp] theorem State.getV_setSt (b : Byte) (r : Reg) : (s.setSt b).getV r = s.getV r := rfl

/-! `State.setKey` -/

@[simp] theorem State.mem_setKey (k : Fin 16) (d : Bool) : (s.setKey k d).mem = s.mem := rfl
@[simp] theorem State.v_setKey (k : Fin 16) (d : Bool) : (s.setKey k d).v = s.v := rfl
@[simp] theorem State.i_setKey (k : Fin 16) (d : Bool) : (s.setKey k d).i = s.i := rfl
@[simp] theorem State.pc_setKey (k : Fin 16) (d : Bool) : (s.setKey k d).pc = s.pc := rfl
@[simp] theorem State.stack_setKey (k : Fin 16) (d : Bool) : (s.setKey k d).stack = s.stack := rfl
@[simp] theorem State.sp_setKey (k : Fin 16) (d : Bool) : (s.setKey k d).sp = s.sp := rfl
@[simp] theorem State.dt_setKey (k : Fin 16) (d : Bool) : (s.setKey k d).dt = s.dt := rfl
@[simp] theorem State.st_setKey (k : Fin 16) (d : Bool) : (s.setKey k d).st = s.st := rfl
@[simp] theorem State.key_setKey (k : Fin 16) (d : Bool) : (s.setKey k d).key = s.key.set k d := rfl
@[simp] theorem State.fb_setKey (k : Fin 16) (d : Bool) : (s.setKey k d).fb = s.fb := rfl
@[simp] theorem State.draw_setKey (k : Fin 16) (d : Bool) : (s.setKey k d).draw = s.draw := rfl
@[simp] theorem State.err_setKey (k : Fin 16) (d : Bool) : (s.setKey k d).err = s.err := rfl
@[simp] theorem State.draws_setKey (k : Fin 16) (d : Bool) : (s.setKey k d).draws = s.draws := rfl
@[simp] theorem State.getV_setKey (k : Fin 16) (d : Bool) (r : Reg) : (s.setKey k d).getV r = s.getV r := rfl

/-! `State.setFb` -/

@[simp] theorem State.mem_setFb (fb : Frame) : (s.setFb fb).mem = s.mem := rfl
@[simp] theorem State.v_setFb (fb : Frame) : (s.setFb fb).v = s.v := rfl
@[simp] theorem State.i_setFb (fb : Frame) : (s.setFb fb).i = s.i := rfl
@[simp] theorem State.pc_setFb (fb : Frame) : (s.setFb fb).pc = s.pc := rfl
@[simp] theorem State.stack_setFb (fb : Frame) : (s.setFb fb).stack = s.stack := rfl
@[simp] theorem State.sp_setFb (fb : Frame) : (s.setFb fb).sp = s.sp := rfl
@[simp] theorem State.dt_setFb (fb : Frame) : (s.setFb fb).dt = s.dt := rfl
@[simp] theorem State.st_setFb (fb : Frame) : (s.setFb fb).st = s.st := rfl
@[simp] theorem State.key_setFb (fb : Frame) : (s.setFb fb).key = s.key := rfl
@[simp] theorem State.fb_setFb (fb : Frame) : (s.setFb fb).fb = fb := rfl
@[simp] theorem State.draw_setFb (fb : Frame) : (s.setFb fb).draw = s.draw := rfl
@[simp] theorem State.err_setFb (fb : Frame) : (s.setFb fb).err = s.err := rfl
@[simp] theorem State.draws_setFb (fb : Frame) : (s.setFb fb).draws = s.draws := rfl
@[simp] theorem State.getV_setFb (fb : Frame) (r : Reg) : (s.setFb fb).getV r = s.getV r := rfl

/-! `State.setDraw` -/

@[simp] theorem State.mem_setDraw (d : Bool) : (s.setDraw d).mem = s.mem := rfl
@[simp] theorem State.v_setDraw (d : Bool) : (s.setDraw d).v = s.v := rfl
@[simp] theorem State.i_setDraw (d : Bool) : (s.setDraw d).i = s.i := rfl
@[simp] theorem State.pc_setDraw (d : Bool) : (s.setDraw d).pc = s.pc := rfl
@[simp] theorem State.stack_setDraw (d : Bool) : (s.setDraw d).stack = s.stack := rfl
@[simp] theorem State.sp_setDraw (d : Bool) : (s.setDraw d).sp = s.sp := rfl
@[simp] theorem State.dt_setDraw (d : Bool) : (s.setDraw d).dt = s.dt := rfl
@[simp] theorem State.st_setDraw (d : Bool) : (s.setDraw d).st = s.st := rfl
@[simp] theorem State.key_setDraw (d : Bool) : (s.setDraw d).key = s.key := rfl
@[simp] theorem State.fb_setDraw (d : Bool) : (s.setDraw d).fb = s.fb := rfl
@[simp] theorem State.draw_setDraw (d : Bool) : (s.setDraw d).draw = d := rfl
@[simp] theorem State.err_setDraw (d : Bool) : (s.setDraw d).err = s.err := rfl
@[simp] theorem State.draws_setDraw (d : Bool) : (s.setDraw d).draws = s.draws := rfl
@[simp] theorem State.getV_setDraw (d : Bool) (r : Reg) : (s.setDraw d).getV r = s.getV r := rfl

/-! `State.setMem` -/

@[simp] theorem State.mem_setMem (m : Memory) : (s.setMem m).mem = m := rfl
@[simp] theorem State.v_setMem (m : Memory) : (s.setMem m).v = s.v := rfl
@[simp] theorem State.i_setMem (m : Memory) : (s.setMem m).i = s.i := rfl
@[simp] theorem State.pc_setMem (m : Memory) : (s.setMem m).pc = s.pc := rfl
@[simp] theorem State.stack_setMem (m : Memory) : (s.setMem m).stack = s.stack := rfl
@[simp] theorem State.sp_setMem (m : Memory) : (s.setMem m).sp = s.sp := rfl
@[simp] theorem State.dt_setMem (m : Memory) : (s.setMem m).dt = s.dt := rfl
@[simp] theorem State.st_setMem (m : Memory) : (s.setMem m).st = s.st := rfl
@[simp] theorem State.key_setMem (m : Memory) : (s.setMem m).key = s.key := rfl
@[simp] theorem State.fb_setMem (m : Memory) : (s.setMem m).fb = s.fb := rfl
@[simp] theorem State.draw_setMem (m : Memory) : (s.setMem m).draw = s.draw := rfl
@[simp] theorem State.err_setMem (m : Memory) : (s.setMem m).err = s.err := rfl
@[simp] theorem State.draws_setMem (m : Memory) : (s.setMem m).draws = s.draws := rfl
@[simp] theorem State.getV_setMem (m : Memory) (r : Reg) : (s.setMem m).getV r = s.getV r := rfl

/-! `State.latch` -/

@[simp] theorem State.mem_latch (f : Fault) : (s.latch f).mem = s.mem := rfl
@[simp] theorem State.v_latch (f : Fault) : (s.latch f).v = s.v := rfl
@[simp] theorem State.i_latch (f : Fault) : (s.latch f).i = s.i := rfl
@[simp] theorem State.pc_latch (f : Fault) : (s.latch f).pc = s.pc := rfl
@[simp] theorem State.stack_latch (f : Fault) : (s.latch f).stack = s.stack := rfl
@[simp] theorem State.sp_latch (f : Fault) : (s.latch f).sp = s.sp := rfl
@[simp] theorem State.dt_latch (f : Fault) : (s.latch f).dt = s.dt := rfl
@[simp] theorem State.st_latch (f : Fault) : (s.latch f).st = s.st := rfl
@[simp] theorem State.key_latch (f : Fault) : (s.latch f).key = s.key := rfl
@[simp] theorem State.fb_latch (f : Fault) : (s.latch f).fb = s.fb := rfl
@[simp] theorem State.draw_latch (f : Fault) : (s.latch f).draw = s.draw := rfl
@[simp] theorem State.err_latch (f : Fault) : (s.latch f).err = some f := rfl
@[simp] theorem State.draws_latch (f : Fault) : (s.latch f).draws = s.draws := rfl
@[simp] theorem State.getV_latch (f : Fault) (r : Reg) : (s.latch f).getV r = s.getV r := rfl

/-! `State.countDraw` -/

@[simp] theorem State.mem_countDraw : s.countDraw.mem = s.mem := rfl
@[simp] theorem State.v_countDraw : s.countDraw.v = s.v := rfl
@[simp] theorem State.i_countDraw : s.countDraw.i = s.i := rfl
@[simp] theorem State.pc_countDraw : s.countDraw.pc = s.pc := rfl
@[simp] theorem State.stack_countDraw : s.countDraw.stack = s.stack := rfl
@[simp] theorem State.sp_countDraw : s.countDraw.sp = s.sp := rfl
@[simp] theorem State.dt_countDraw : s.countDraw.dt = s.dt := rfl
@[simp] theorem State.st_countDraw : s.countDraw.st = s.st := rfl
@[simp] theorem State.key_countDraw : s.countDraw.key = s.key := rfl
@[simp] theorem State.fb_countDraw : s.countDraw.fb = s.fb := rfl
@[simp] theorem State.draw_countDraw : s.countDraw.draw = s.draw := rfl
@[simp] theorem State.err_countDraw : s.countDraw.err = s.err := rfl
@[simp] theorem State.draws_countDraw : s.countDraw.draws = s.draws + 1 := rfl
@[simp] theorem State.getV_countDraw (r : Reg) : s.countDraw.getV r = s.getV r := rfl

/-! `State.setRegs` -/

@[simp] theorem State.mem_setRegs (v : Vector Byte 16) : (s.setRegs v).mem = s.mem := rfl
@[simp] theorem State.v_setRegs (v : Vector Byte 16) : (s.setRegs v).v = v := rfl
@[simp] theorem State.i_setRegs (v : Vector Byte 16) : (s.setRegs v).i = s.i := rfl
@[simp] theorem State.pc_setRegs (v : Vector Byte 16) : (s.setRegs v).pc = s.pc := rfl
@[simp] theorem State.stack_setRegs (v : Vector Byte 16) : (s.setRegs v).stack = s.stack := rfl
@[simp] theorem State.sp_setRegs (v : Vector Byte 16) : (s.setRegs v).sp = s.sp := rfl
@[simp] theorem State.dt_setRegs (v : Vector Byte 16) : (s.setRegs v).dt = s.dt := rfl
@[simp] theorem State.st_setRegs (v : Vector Byte 16) : (s.setRegs v).st = s.st := rfl
@[simp] theorem State.key_setRegs (v : Vector Byte 16) : (s.setRegs v).key = s.key := rfl
@[simp] theorem State.fb_setRegs (v : Vector Byte 16) : (s.setRegs v).fb = s.fb := rfl
@[simp] theorem State.draw_setRegs (v : Vector Byte 16) : (s.setRegs v).draw = s.draw := rfl
@[simp] theorem State.err_setRegs (v : Vector Byte 16) : (s.setRegs v).err = s.err := rfl
@[simp] theorem State.draws_setRegs (v : Vector Byte 16) : (s.setRegs v).draws = s.draws := rfl

/-! `State.advance` -/

@[simp] theorem State.mem_advance : s.advance.mem = s.mem := rfl
@[simp] theorem State.v_advance : s.advance.v = s.v := rfl
@[simp] theorem State.i_advance : s.advance.i = s.i := rfl
@[simp] theorem State.pc_advance : s.advance.pc = s.pc + 2 := rfl
@[simp] theorem State.stack_advance : s.advance.stack = s.stack := rfl
@[simp] theorem State.sp_advance : s.advance.sp = s.sp := rfl
@[simp] theorem State.dt_advance : s.advance.dt = s.dt := rfl
@[simp] theorem State.st_advance : s.advance.st = s.st := rfl
@[simp] theorem State.key_advance : s.advance.key = s.key := rfl
@[simp] theorem State.fb_advance : s.advance.fb = s.fb := rfl
@[simp] theorem State.draw_advance : s.advance.draw = s.draw := rfl
@[simp] theorem State.err_advance : s.advance.err = s.err := rfl
@[simp] theorem State.draws_advance : s.advance.draws = s.draws := rfl
@[simp] theorem State.getV_advance (r : Reg) : s.advance.getV r = s.getV r := rfl

/-! `State.rewind` -/

@[simp] theorem State.mem_rewind : s.rewind.mem = s.mem := rfl
@[simp] theorem State.v_rewind : s.rewind.v = s.v := rfl
@[simp] theorem State.i_rewind : s.rewind.i = s.i := rfl
@[simp] theorem State.pc_rewind : s.rewind.pc = s.pc - 2 := rfl
@[simp] theorem State.stack_rewind : s.rewind.stack = s.stack := rfl
@[simp] theorem State.sp_rewind : s.rewind.sp = s.sp := rfl
@[simp] theorem State.dt_rewind : s.rewind.dt = s.dt := rfl
@[simp] theorem State.st_rewind : s.rewind.st = s.st := rfl
@[simp] theorem State.key_rewind : s.rewind.key = s.key := rfl
@[simp] theorem State.fb_rewind : s.rewind.fb = s.fb := rfl
@[simp] theorem State.draw_rewind : s.rewind.draw = s.draw := rfl
@[simp] theorem State.err_rewind : s.rewind.err = s.err := rfl
@[simp] theorem State.draws_rewind : s.rewind.draws = s.draws := rfl
@[simp] theorem State.getV_rewind (r : Reg) : s.rewind.getV r = s.getV r := rfl

/-! Reading a register after it, or another one, was written -/

@[simp] theorem State.getV_setV_self (x : Reg) (b : Byte) : (s.setV x b).getV x = b := by
  simp [State.getV, State.setV]

@[simp] theorem State.getV_setV_ne {x r : Reg} (h : r ≠ x) (b : Byte) : (s.setV x b).getV r = s.getV r := by
  have : x.val ≠ r.val := fun e => h (Fin.ext e.symm)
  simp [State.getV, State.setV, Vector.getElem_set_ne, this]

theorem State.getV_setV (x r : Reg) (b : Byte) : (s.setV x b).getV r = if r = x then b else s.getV r := by
  split
  · subst r; simp
  · simp [*]

@[simp] theorem State.getV_setRegs (v : Vector Byte 16) (r : Reg) : (s.setRegs v).getV r = v[r] := rfl

/-- A register depends on nothing but V0 to VF. -/
theorem State.getV_congr {s t : State} (h : t.v = s.v) (r : Reg) : t.getV r = s.getV r := by
  simp [State.getV, h]

/-! Skips -/

@[simp] theorem State.skipIf_true : s.skipIf true = s.advance := rfl
@[simp] theorem State.skipIf_false : s.skipIf false = s := rfl

/-- A skip changes PC alone. -/
theorem State.skipIf_eq_setPc (c : Bool) : s.skipIf c = s.setPc (if c then s.pc + 2 else s.pc) := by
  cases c <;> rfl

@[simp] theorem State.pc_skipIf (c : Bool) : (s.skipIf c).pc = if c then s.pc + 2 else s.pc := by cases c <;> rfl
@[simp] theorem State.err_skipIf (c : Bool) : (s.skipIf c).err = s.err := by cases c <;> rfl

/-! A result together with its flag, the flag last -/

/-- With VF_LAST, the flag remains in VF, the result is in Vx unless x = F, and every other register is as before. -/
theorem State.getV_setResultFlag (x r : Reg) (result flag : Byte) :
    (s.setResultFlag true x result flag).getV r = if r = VF then flag else if r = x then result else s.getV r := by
  simp [State.setResultFlag, State.getV_setV]

/-- Both orders of the two writes change V0 to VF alone. -/
theorem State.setResultFlag_eq_setRegs (c : Bool) (x : Reg) (result flag : Byte) :
    ∃ v, s.setResultFlag c x result flag = s.setRegs v := by
  cases c
  · exact ⟨(s.v.set VF flag).set x result, rfl⟩
  · exact ⟨(s.v.set x result).set VF flag, rfl⟩

end Sys2Proof.Machine
end

