-- ==== Sys2Proof/Laws/Ops.lean ====
section
/-! SUPPORT. One lemma per shared operation that says everything it can do; provers cite these instead of unfolding the operation. -/

namespace Sys2Proof.Machine

variable {s t : State}

/-! ## Operands -/

@[simp] theorem immAddr_toNat (nnn : BitVec 12) : (immAddr nnn).toNat = nnn.toNat := by
  have := nnn.isLt
  simp [immAddr]; omega

@[simp] theorem State.regWord_toNat (s : State) (x : Reg) : (s.regWord x).toNat = (s.getV x).toNat := by
  have := (s.getV x).isLt
  simp [State.regWord]; omega

@[simp] theorem State.effAddr_zero (s : State) : s.effAddr 0 = s.i.toNat := rfl

theorem State.effAddr_eq (s : State) (j : Nat) : s.effAddr j = s.i.toNat + j := rfl

@[simp] theorem Config.chosen_vfLast : Config.chosen.vfLast = true := rfl
@[simp] theorem Config.chosen_shiftUsesVy : Config.chosen.shiftUsesVy = false := rfl
@[simp] theorem Config.chosen_keyIndexPolicy : Config.chosen.keyIndexPolicy = .fault := rfl

@[simp] theorem State.shiftOperand_false (s : State) (x y : Reg) : s.shiftOperand false x y = s.getV x := rfl

theorem flagByte_eq_one (c : Bool) : flagByte c = 1 ↔ c = true := by cases c <;> decide
theorem flagByte_zero_or_one (c : Bool) : flagByte c = 0 ∨ flagByte c = 1 := by cases c <;> decide

/-- The digits are hundreds, tens and ones (R123). -/
theorem decimalDigits_eq (b : Byte) :
    (decimalDigits b).map BitVec.toNat = [b.toNat / 100, b.toNat / 10 % 10, b.toNat % 10] := by
  simp [decimalDigits]

@[simp] theorem decimalDigits_length (b : Byte) : (decimalDigits b).length = 3 := rfl

/-- V0 to Vx, as many as x + 1, each at its own place (R124). -/
theorem State.regRange_eq (s : State) (x : Reg) : s.regRange x = ((List.finRange 16).take (x.val + 1)).map s.getV := by
  have h : ∀ x : Reg, (List.finRange 16).filter (fun j => decide (j ≤ x)) = (List.finRange 16).take (x.val + 1) := by decide
  rw [← h x]
  simp only [State.regRange]
  induction (List.finRange 16) with
  | nil => rfl
  | cons a l ih => by_cases ha : a ≤ x <;> simp [ha, ih]

@[simp] theorem State.length_regRange (s : State) (x : Reg) : (s.regRange x).length = x.val + 1 := by
  have := x.isLt
  simp only [State.regRange_eq, List.length_map, List.length_take, List.length_finRange]; omega

theorem State.getElem_regRange (s : State) (x r : Reg) (h : r.val < (s.regRange x).length) :
    (s.regRange x)[r.val] = s.getV r := by
  simp [State.regRange_eq]

/-- Each register of V0 to Vx gets its own byte, the others keep theirs (R125). -/
theorem State.getV_loadedRegs (s : State) (x r : Reg) :
    (s.setRegs (s.loadedRegs x)).getV r = if r ≤ x then s.mem.read (s.effAddr r.val) else s.getV r := by
  simp [State.loadedRegs]

/-! ## The bounds check -/

/-- The bounds check passes exactly when nothing is accessed or all of it lies in the address space (R42 to R44, R48). -/
theorem rangeFault_eq_none {first len : Nat} : rangeFault first len = none ↔ len = 0 ∨ first + len ≤ 4096 := by
  have : memSize = 4096 := rfl
  unfold rangeFault
  split <;> simp_all

/-- A failed bounds check names the first address above 4095 that the access needs (D1). -/
theorem rangeFault_of_gt {first len : Nat} (h0 : 0 < len) (h : 4096 < first + len) :
    rangeFault first len = some (.outOfBounds .mem (max first 4096)) := by
  have : memSize = 4096 := rfl
  rw [rangeFault, if_neg (by omega), this]

theorem guardRange_pass {len : Nat} {k : State → Result} (h : len = 0 ∨ s.i.toNat + len ≤ 4096) : guardRange len s k = k s := by
  simp [guardRange, rangeFault_eq_none.2 h]

theorem guardRange_fail {len : Nat} {k : State → Result} (h0 : 0 < len) (h : 4096 < s.i.toNat + len) :
    guardRange len s k = .next (s.latch (.outOfBounds .mem (max s.i.toNat 4096))) := by
  simp [guardRange, rangeFault_of_gt h0 h, takeFault]

/-- What a guarded access answers: either the check passes and it is its continuation, or it fails and only ERR changes. -/
theorem guardRange_cases {len : Nat} {k : State → Result} (h : guardRange len s k = .next t) :
    ((len = 0 ∨ s.i.toNat + len ≤ 4096) ∧ k s = .next t) ∨
    (0 < len ∧ 4096 < s.i.toNat + len ∧ t = s.latch (.outOfBounds .mem (max s.i.toNat 4096))) := by
  by_cases hp : len = 0 ∨ s.i.toNat + len ≤ 4096
  · rw [guardRange_pass hp] at h; exact .inl ⟨hp, h⟩
  · rw [guardRange_fail (by omega) (by omega)] at h
    cases h
    exact .inr ⟨by omega, by omega, rfl⟩

/-! ## The call stack -/

theorem pushThen_pass {w : Word} {k : State → Result} (h : s.sp.val < 16) :
    pushThen w s k = k { s with stack := s.stack.set s.sp.val w, sp := ⟨s.sp.val + 1, Nat.succ_lt_succ h⟩ } := by
  simp [pushThen, h]

theorem pushThen_full {w : Word} {k : State → Result} (h : s.sp.val = 16) :
    pushThen w s k = .next (s.latch .stackOverflow) := by
  simp [pushThen, h, takeFault]

theorem popThen_pass {k : Word → State → Result} (h : 0 < s.sp.val) :
    popThen s k = k (s.stack[s.sp.val - 1]'(by have := s.sp.isLt; omega))
      { s with sp := ⟨s.sp.val - 1, by have := s.sp.isLt; omega⟩ } := by
  simp [popThen, h]

theorem popThen_empty {k : Word → State → Result} (h : s.sp.val = 0) : popThen s k = .next (s.latch .stackUnderflow) := by
  simp [popThen, h, takeFault]

/-! ## Keys -/

theorem State.keyLookup_of_lt {policy : KeyIndexPolicy} {k : Byte} (h : k.toNat < 16) :
    s.keyLookup policy k = .level s.key[k.toNat] := by
  simp [State.keyLookup, h]

theorem State.keyLookup_fault {k : Byte} (h : 15 < k.toNat) :
    s.keyLookup .fault k = .fault (.outOfBounds .key k.toNat) := by
  simp [State.keyLookup, show ¬ k.toNat < 16 by omega]

/-- No key is found exactly when none is down (R154). -/
theorem State.leastKey_eq_none : s.leastKey = none ↔ ∀ k : Fin 16, s.key[k] = false := by
  simp [State.leastKey]

/-- The key found is the least that is down (R154). -/
theorem State.leastKey_eq_some {k : Fin 16} :
    s.leastKey = some k ↔ s.key[k] = true ∧ ∀ j : Fin 16, j < k → s.key[j] = false := by
  constructor
  · intro h
    refine ⟨by simpa using List.find?_some h, fun j hj => ?_⟩
    obtain ⟨-, pre, post, hl, hp⟩ := List.find?_eq_some_iff_append.1 h
    have hs : (pre ++ k :: post).Pairwise (· < ·) := hl ▸ (List.pairwise_lt_finRange 16)
    have hm : j ∈ pre ++ k :: post := hl ▸ List.mem_finRange j
    rw [List.pairwise_append] at hs
    rcases List.mem_append.1 hm with hm | hm
    · simpa using hp j hm
    · rcases List.mem_cons.1 hm with rfl | hm
      · omega
      · have := (List.pairwise_cons.1 hs.2.1).1 j hm
        omega
  · rintro ⟨hk, hlt⟩
    cases hf : s.leastKey with
    | none => exact absurd (State.leastKey_eq_none.1 hf k) (by simp [hk])
    | some j =>
      have hj : s.key[j] = true := by simpa using List.find?_some hf
      rcases Nat.lt_trichotomy j.val k.val with h | h | h
      · exact absurd (hlt j h) (by simp [hj])
      · rw [Fin.ext h]
      · obtain ⟨-, pre, post, hl, hp⟩ := List.find?_eq_some_iff_append.1 hf
        have hs : (pre ++ j :: post).Pairwise (· < ·) := hl ▸ (List.pairwise_lt_finRange 16)
        have hm : k ∈ pre ++ j :: post := hl ▸ List.mem_finRange k
        rw [List.pairwise_append] at hs
        rcases List.mem_append.1 hm with hm | hm
        · exact absurd (hp k hm) (by simp [hk])
        · rcases List.mem_cons.1 hm with rfl | hm
          · rfl
          · have := (List.pairwise_cons.1 hs.2.1).1 k hm
            omega

theorem State.getElem_setKey (k j : Fin 16) (d : Bool) : (s.setKey k d).key[j] = if j = k then d else s.key[j] := by
  by_cases h : j = k
  · subst h; simp [State.setKey]
  · have : k.val ≠ j.val := fun e => h (Fin.ext e.symm)
    simp [State.setKey, h, Vector.getElem_set_ne, this]

/-! ## The front of a STEP -/

/-- What the front of a STEP leaves: a latched fault, a fault of the fetch, a fault of the decode, or an instruction to execute
(R60, R177). -/
theorem State.front_cases (s : State) :
    (∃ f, s.err = some f ∧ s.front = .stopped f) ∨
    (s.err = none ∧ 4095 ≤ s.pc.toNat ∧ s.front = .raised (s.latch (.outOfBounds .mem (max s.pc.toNat 4096)))) ∨
    (s.err = none ∧ s.pc.toNat ≤ 4094 ∧ (∀ i, decodeWord s.fetchWord ≠ .instr i) ∧
      s.front = .raised (s.advance.latch (.unknownOpcode s.fetchWord))) ∨
    (∃ i, s.err = none ∧ s.pc.toNat ≤ 4094 ∧ decodeWord s.fetchWord = .instr i ∧ s.front = .execute i s.advance) := by
  unfold State.front
  cases he : s.err with
  | some f => exact .inl ⟨f, rfl, rfl⟩
  | none =>
    by_cases hp : s.pc.toNat ≤ 4094
    · rw [rangeFault_eq_none.2 (by omega)]
      cases hd : decodeWord s.fetchWord with
      | instr i => exact .inr (.inr (.inr ⟨i, rfl, hp, rfl, by simp⟩))
      | unknownOpcode w => exact .inr (.inr (.inl ⟨rfl, hp, by simp, by simp⟩))
      | truncated n => exact .inr (.inr (.inl ⟨rfl, hp, by simp, by simp⟩))
    · rw [rangeFault_of_gt (by omega) (by omega)]
      exact .inr (.inl ⟨rfl, by omega, rfl⟩)

theorem State.fetchWord_toNat (s : State) :
    s.fetchWord.toNat = (s.mem.read s.pc.toNat).toNat * 256 + (s.mem.read (s.pc.toNat + 1)).toNat :=
  wordOfBytes_toNat _ _

end Sys2Proof.Machine
end

