-- ==== Sys2Proof/Laws/Display.lean ====
section
/-! SUPPORT. What the raster does, pixel by pixel: one toggle, one sprite row, all rows. -/

namespace Sys2Proof.Machine

/-- A toggle inverts its own pixel and no other. -/
theorem Raster.pixel_toggle (p : Raster) (r r' : Fin 32) (c c' : Fin 64) :
    (p.toggle r c).fb.pixel r' c' = if r' = r ∧ c' = c then !p.fb.pixel r' c' else p.fb.pixel r' c' := by
  by_cases hr : r' = r
  · subst hr
    by_cases hc : c' = c
    · subst hc; simp [Raster.toggle, Frame.pixel]
    · have : c.val ≠ c'.val := fun e => hc (Fin.ext e.symm)
      simp [Raster.toggle, Frame.pixel, hc, Vector.getElem_set_ne, this]
  · have : r.val ≠ r'.val := fun e => hr (Fin.ext e.symm)
    simp [Raster.toggle, Frame.pixel, hr, Vector.getElem_set_ne, this]

@[simp] theorem Raster.collided_toggle (p : Raster) (r : Fin 32) (c : Fin 64) :
    (p.toggle r c).collided = (p.collided || p.fb.pixel r c) := rfl

@[simp] theorem Raster.toggled_toggle (p : Raster) (r : Fin 32) (c : Fin 64) : (p.toggle r c).toggled = true := rfl

/-- Pixels less than 64 columns apart are different pixels of a row (R143). -/
theorem wrapCol_inj {xp a b : Nat} (ha : a < 64) (hb : b < 64) (h : wrapCol (xp + a) = wrapCol (xp + b)) : a = b := by
  have := congrArg Fin.val h
  simp only [wrapCol, Fin.val_ofNat] at this
  omega

/-- Rows less than 32 apart are different rows (R143). -/
theorem wrapRow_inj {y a b : Nat} (ha : a < 32) (hb : b < 32) (h : wrapRow (y + a) = wrapRow (y + b)) : a = b := by
  have := congrArg Fin.val h
  simp only [wrapRow, Fin.val_ofNat] at this
  omega

/-- The pixel (r, c) is a set bit of the sprite row byte `b` drawn at column `xp` on row `y`, looking at the bits of `bits`. -/
def InRow (xp y : Nat) (b : Byte) (bits : List Nat) (r : Fin 32) (c : Fin 64) : Prop :=
  r = wrapRow y ∧ ∃ bit ∈ bits, spriteBit b bit = true ∧ c = wrapCol (xp + bit)

/-- Toggling the set bits of a list of different bit positions inverts exactly their pixels, collides exactly when one of them was 1, and
toggles exactly when there is one. -/
theorem Raster.foldBits (xp y : Nat) (b : Byte) (bits : List Nat) (hn : bits.Nodup) (hb : ∀ k ∈ bits, k < 64) (p : Raster) :
    let q := bits.foldl (fun p bit => if spriteBit b bit then p.toggle (wrapRow y) (wrapCol (xp + bit)) else p) p
    (∀ r c, InRow xp y b bits r c → q.fb.pixel r c = !p.fb.pixel r c) ∧
    (∀ r c, ¬ InRow xp y b bits r c → q.fb.pixel r c = p.fb.pixel r c) ∧
    (q.collided = true ↔ p.collided = true ∨ ∃ r c, InRow xp y b bits r c ∧ p.fb.pixel r c = true) ∧
    (q.toggled = true ↔ p.toggled = true ∨ ∃ r c, InRow xp y b bits r c) := by
  induction bits generalizing p with
  | nil => simp [InRow]
  | cons k bits ih =>
    obtain ⟨hk, hn⟩ := List.nodup_cons.1 hn
    have hb' : ∀ j ∈ bits, j < 64 := fun j hj => hb j (List.mem_cons_of_mem _ hj)
    simp only [List.foldl_cons]
    by_cases hs : spriteBit b k = true
    · rw [if_pos hs]
      obtain ⟨h1, h2, h3, h4⟩ := ih hn hb' (p.toggle (wrapRow y) (wrapCol (xp + k)))
      -- the pixel of bit `k` is none of the later bits' pixels
      have hdis : ∀ r, ¬ InRow xp y b bits r (wrapCol (xp + k)) := by
        rintro r ⟨-, j, hj, -, e⟩
        exact hk ((wrapCol_inj (hb k (by simp)) (hb' j hj) e) ▸ hj)
      have hcons : ∀ r c, InRow xp y b (k :: bits) r c ↔ (r = wrapRow y ∧ c = wrapCol (xp + k)) ∨ InRow xp y b bits r c := by
        intro r c
        simp only [InRow, List.mem_cons, exists_eq_or_imp, hs, true_and]
        constructor
        · rintro ⟨rfl, h | h⟩
          · exact .inl ⟨rfl, h⟩
          · exact .inr ⟨rfl, h⟩
        · rintro (⟨rfl, h⟩ | ⟨rfl, h⟩)
          · exact ⟨rfl, .inl h⟩
          · exact ⟨rfl, .inr h⟩
      refine ⟨fun r c h => ?_, fun r c h => ?_, ?_, ?_⟩
      · rcases (hcons r c).1 h with ⟨rfl, rfl⟩ | h
        · rw [h2 _ _ (hdis _), Raster.pixel_toggle, if_pos ⟨rfl, rfl⟩]
        · rw [h1 _ _ h, Raster.pixel_toggle, if_neg]
          rintro ⟨rfl, rfl⟩
          exact hdis _ h
      · rw [h2 _ _ fun h' => h ((hcons r c).2 (.inr h')), Raster.pixel_toggle, if_neg]
        exact fun h' => h ((hcons r c).2 (.inl h'))
      · rw [h3, Raster.collided_toggle, Bool.or_eq_true]
        constructor
        · rintro ((h | h) | ⟨r, c, h, hp⟩)
          · exact .inl h
          · exact .inr ⟨_, _, (hcons _ _).2 (.inl ⟨rfl, rfl⟩), h⟩
          · rw [Raster.pixel_toggle, if_neg (by rintro ⟨rfl, rfl⟩; exact hdis _ h)] at hp
            exact .inr ⟨r, c, (hcons r c).2 (.inr h), hp⟩
        · rintro (h | ⟨r, c, h, hp⟩)
          · exact .inl (.inl h)
          · rcases (hcons r c).1 h with ⟨rfl, rfl⟩ | h
            · exact .inl (.inr hp)
            · refine .inr ⟨r, c, h, ?_⟩
              rw [Raster.pixel_toggle, if_neg (by rintro ⟨rfl, rfl⟩; exact hdis _ h)]
              exact hp
      · rw [h4, Raster.toggled_toggle]
        exact ⟨fun _ => .inr ⟨_, _, (hcons _ _).2 (.inl ⟨rfl, rfl⟩)⟩, fun _ => .inl rfl⟩
    · rw [if_neg hs]
      have hcons : ∀ r c, InRow xp y b (k :: bits) r c ↔ InRow xp y b bits r c := by
        intro r c
        simp [InRow, hs]
      simpa only [hcons] using ih hn hb' p

/-- One sprite row. -/
theorem Raster.drawRow_spec (xp y : Nat) (b : Byte) (p : Raster) :
    (∀ r c, InRow xp y b (List.range 8) r c → (p.drawRow xp y b).fb.pixel r c = !p.fb.pixel r c) ∧
    (∀ r c, ¬ InRow xp y b (List.range 8) r c → (p.drawRow xp y b).fb.pixel r c = p.fb.pixel r c) ∧
    ((p.drawRow xp y b).collided = true ↔
      p.collided = true ∨ ∃ r c, InRow xp y b (List.range 8) r c ∧ p.fb.pixel r c = true) ∧
    ((p.drawRow xp y b).toggled = true ↔ p.toggled = true ∨ ∃ r c, InRow xp y b (List.range 8) r c) :=
  Raster.foldBits xp y b (List.range 8) List.nodup_range (fun k hk => by have := List.mem_range.1 hk; omega) p

/-- The pixel (r, c) is a set bit of one of the rows of `sprite`, the first drawn on row `y`. -/
def InSprite (xp y : Nat) (sprite : List Byte) (r : Fin 32) (c : Fin 64) : Prop :=
  ∃ row, ∃ h : row < sprite.length, InRow xp (y + row) sprite[row] (List.range 8) r c

theorem inSprite_nil (xp y : Nat) (r : Fin 32) (c : Fin 64) : ¬ InSprite xp y [] r c := by
  rintro ⟨row, h, -⟩; simp at h

theorem inSprite_cons (xp y : Nat) (b : Byte) (bs : List Byte) (r : Fin 32) (c : Fin 64) :
    InSprite xp y (b :: bs) r c ↔ InRow xp y b (List.range 8) r c ∨ InSprite xp (y + 1) bs r c := by
  constructor
  · rintro ⟨row, h, hr⟩
    cases row with
    | zero => exact .inl hr
    | succ row =>
      refine .inr ⟨row, by simpa using h, ?_⟩
      rw [show y + 1 + row = y + (row + 1) by omega]
      simpa using hr
  · rintro (hr | ⟨row, h, hr⟩)
    · exact ⟨0, by simp, by simpa using hr⟩
    · refine ⟨row + 1, by simpa using h, ?_⟩
      rw [show y + (row + 1) = y + 1 + row by omega]
      simpa using hr

/-- All rows of a sprite of at most 32 rows: exactly its set bits' pixels are inverted, and the collision and toggle bits say what happened
to them (R142, R143, R144). -/
theorem Raster.drawRows_spec (xp : Nat) (sprite : List Byte) (hl : sprite.length ≤ 32) (y : Nat) (p : Raster) :
    (∀ r c, InSprite xp y sprite r c → (p.drawRows xp y sprite).fb.pixel r c = !p.fb.pixel r c) ∧
    (∀ r c, ¬ InSprite xp y sprite r c → (p.drawRows xp y sprite).fb.pixel r c = p.fb.pixel r c) ∧
    ((p.drawRows xp y sprite).collided = true ↔
      p.collided = true ∨ ∃ r c, InSprite xp y sprite r c ∧ p.fb.pixel r c = true) ∧
    ((p.drawRows xp y sprite).toggled = true ↔ p.toggled = true ∨ ∃ r c, InSprite xp y sprite r c) := by
  induction sprite generalizing y p with
  | nil => simp [Raster.drawRows, inSprite_nil]
  | cons b bs ih =>
    simp only [List.length_cons] at hl
    rw [Raster.drawRows]
    obtain ⟨r1, r2, r3, r4⟩ := Raster.drawRow_spec xp y b p
    obtain ⟨h1, h2, h3, h4⟩ := ih (by omega) (y + 1) (p.drawRow xp y b)
    -- the first row is none of the later rows
    have hdis : ∀ r c, InRow xp y b (List.range 8) r c → ¬ InSprite xp (y + 1) bs r c := by
      rintro r c ⟨rfl, -⟩ ⟨row, h, e, -⟩
      have := @wrapRow_inj y 0 (1 + row) (by omega) (by omega) (by rw [show y + (1 + row) = y + 1 + row by omega]; exact e)
      omega
    refine ⟨fun r c h => ?_, fun r c h => ?_, ?_, ?_⟩
    · rcases (inSprite_cons ..).1 h with h | h
      · rw [h2 _ _ (hdis _ _ h), r1 _ _ h]
      · rw [h1 _ _ h, r2 _ _ fun h' => hdis _ _ h' h]
    · rw [inSprite_cons, not_or] at h
      rw [h2 _ _ h.2, r2 _ _ h.1]
    · rw [h3, r3]
      constructor
      · rintro ((h | ⟨r, c, h, hp⟩) | ⟨r, c, h, hp⟩)
        · exact .inl h
        · exact .inr ⟨r, c, (inSprite_cons ..).2 (.inl h), hp⟩
        · rw [r2 _ _ fun h' => hdis _ _ h' h] at hp
          exact .inr ⟨r, c, (inSprite_cons ..).2 (.inr h), hp⟩
      · rintro (h | ⟨r, c, h, hp⟩)
        · exact .inl (.inl h)
        · rcases (inSprite_cons ..).1 h with h | h
          · exact .inl (.inr ⟨r, c, h, hp⟩)
          · exact .inr ⟨r, c, h, by rw [r2 _ _ fun h' => hdis _ _ h' h]; exact hp⟩
    · rw [h4, r4]
      constructor
      · rintro ((h | ⟨r, c, h⟩) | ⟨r, c, h⟩)
        · exact .inl h
        · exact .inr ⟨r, c, (inSprite_cons ..).2 (.inl h)⟩
        · exact .inr ⟨r, c, (inSprite_cons ..).2 (.inr h)⟩
      · rintro (h | ⟨r, c, h⟩)
        · exact .inl (.inl h)
        · rcases (inSprite_cons ..).1 h with h | h
          · exact .inl (.inr ⟨r, c, h⟩)
          · exact .inr ⟨r, c, h⟩

/-- Every pixel of a clear framebuffer is 0. -/
@[simp] theorem Frame.pixel_clear (r : Fin 32) (c : Fin 64) : Frame.clear.pixel r c = false := by
  simp [Frame.pixel, Frame.clear]

/-- Two framebuffers with the same pixels are equal. -/
theorem Frame.ext {f g : Frame} (h : ∀ r c, f.pixel r c = g.pixel r c) : f = g := by
  apply Vector.ext
  intro r hr
  apply Vector.ext
  intro c hc
  exact h ⟨r, hr⟩ ⟨c, hc⟩

end Sys2Proof.Machine
end

