-- ==== Sys2Proof/Laws/PerInstr.lean ====
section
/-! SUPPORT. Per instruction: it is well formed, and its word has the fixed bits of its row of the opcode map (R66). -/

namespace Sys2Proof.Laws.EncodeRow

/-- The instruction is well formed and its word selects its own row. -/
def Statement (i : Instr) : Prop := i.wellFormed = true ∧ i.row.selects (encode i) = true

/-- An operand of four bits fits its field. -/
theorem reg_fits (x : Reg) : fieldFits 4 x.val = true := by simp [fieldFits]

/-- A bit vector fits a field of its own width. -/
theorem bv_fits {n : Nat} (b : BitVec n) : fieldFits n b.toNat = true := by simp [fieldFits, b.isLt]

/-- The operand types of every constructor hold the bounds of its fields. -/
theorem fits (i : Instr) : i.wellFormed = true := by
  cases i <;> simp [Instr.wellFormed, Instr.operands, reg_fits, bv_fits]

theorem selects_nnn (op : Nat) (h : op < 16) (nnn : BitVec 12) (v : Word) (hv : v.toNat = op * 4096) :
    formatNnn op nnn &&& 0xF000 = v := by
  have := nnn.isLt
  rw [and_F000_eq_iff _ _ (by omega), fieldOp_eq, fieldOp_eq, formatNnn_toNat h]; omega

theorem selects_xkk (op : Nat) (h : op < 16) (x : Reg) (kk : Byte) (v : Word) (hv : v.toNat = op * 4096) :
    formatXkk op x kk &&& 0xF000 = v := by
  have := kk.isLt
  rw [and_F000_eq_iff _ _ (by omega), fieldOp_eq, fieldOp_eq, formatXkk_toNat h]; omega

theorem selects_xyn (op : Nat) (h : op < 16) (x y : Reg) (n : BitVec 4) (v : Word) (hv : v.toNat = op * 4096) :
    formatXyn op x y n &&& 0xF000 = v := by
  have := n.isLt
  rw [and_F000_eq_iff _ _ (by omega), fieldOp_eq, fieldOp_eq, formatXyn_toNat h]; omega

theorem selects_xy (op f : Nat) (h : op < 16) (hf : f < 16) (x y : Reg) (v : Word) (hv : v.toNat = op * 4096 + f) :
    formatXy op x y f &&& 0xF00F = v := by
  rw [and_F00F_eq_iff _ _ (by omega), fieldOp_eq, fieldOp_eq, fieldN_toNat, fieldN_toNat, formatXy_toNat h hf]; omega

theorem selects_x (op ff : Nat) (h : op < 16) (hf : ff < 256) (x : Reg) (v : Word) (hv : v.toNat = op * 4096 + ff) :
    formatX op x ff &&& 0xF0FF = v := by
  rw [and_F0FF_eq_iff _ _ (by omega), fieldOp_eq, fieldOp_eq, fieldKk_toNat, fieldKk_toNat, formatX_toNat h hf]; omega

theorem cls : Statement .cls := ⟨fits _, rfl⟩
theorem ret : Statement .ret := ⟨fits _, rfl⟩
theorem jp (nnn : BitVec 12) : Statement (.jp nnn) :=
  ⟨fits _, decide_eq_true (selects_nnn 1 (by decide) nnn _ rfl)⟩
theorem call (nnn : BitVec 12) : Statement (.call nnn) :=
  ⟨fits _, decide_eq_true (selects_nnn 2 (by decide) nnn _ rfl)⟩
theorem seImm (x : Reg) (kk : Byte) : Statement (.seImm x kk) :=
  ⟨fits _, decide_eq_true (selects_xkk 3 (by decide) x kk _ rfl)⟩
theorem sneImm (x : Reg) (kk : Byte) : Statement (.sneImm x kk) :=
  ⟨fits _, decide_eq_true (selects_xkk 4 (by decide) x kk _ rfl)⟩
theorem seReg (x y : Reg) : Statement (.seReg x y) :=
  ⟨fits _, decide_eq_true (selects_xy 5 0 (by decide) (by decide) x y _ rfl)⟩
theorem ldImm (x : Reg) (kk : Byte) : Statement (.ldImm x kk) :=
  ⟨fits _, decide_eq_true (selects_xkk 6 (by decide) x kk _ rfl)⟩
theorem addImm (x : Reg) (kk : Byte) : Statement (.addImm x kk) :=
  ⟨fits _, decide_eq_true (selects_xkk 7 (by decide) x kk _ rfl)⟩
theorem ldReg (x y : Reg) : Statement (.ldReg x y) :=
  ⟨fits _, decide_eq_true (selects_xy 8 0 (by decide) (by decide) x y _ rfl)⟩
theorem orReg (x y : Reg) : Statement (.orReg x y) :=
  ⟨fits _, decide_eq_true (selects_xy 8 1 (by decide) (by decide) x y _ rfl)⟩
theorem andReg (x y : Reg) : Statement (.andReg x y) :=
  ⟨fits _, decide_eq_true (selects_xy 8 2 (by decide) (by decide) x y _ rfl)⟩
theorem xorReg (x y : Reg) : Statement (.xorReg x y) :=
  ⟨fits _, decide_eq_true (selects_xy 8 3 (by decide) (by decide) x y _ rfl)⟩
theorem addReg (x y : Reg) : Statement (.addReg x y) :=
  ⟨fits _, decide_eq_true (selects_xy 8 4 (by decide) (by decide) x y _ rfl)⟩
theorem subReg (x y : Reg) : Statement (.subReg x y) :=
  ⟨fits _, decide_eq_true (selects_xy 8 5 (by decide) (by decide) x y _ rfl)⟩
theorem shr (x y : Reg) : Statement (.shr x y) :=
  ⟨fits _, decide_eq_true (selects_xy 8 6 (by decide) (by decide) x y _ rfl)⟩
theorem subnReg (x y : Reg) : Statement (.subnReg x y) :=
  ⟨fits _, decide_eq_true (selects_xy 8 7 (by decide) (by decide) x y _ rfl)⟩
theorem shl (x y : Reg) : Statement (.shl x y) :=
  ⟨fits _, decide_eq_true (selects_xy 8 14 (by decide) (by decide) x y _ rfl)⟩
theorem sneReg (x y : Reg) : Statement (.sneReg x y) :=
  ⟨fits _, decide_eq_true (selects_xy 9 0 (by decide) (by decide) x y _ rfl)⟩
theorem ldI (nnn : BitVec 12) : Statement (.ldI nnn) :=
  ⟨fits _, decide_eq_true (selects_nnn 10 (by decide) nnn _ rfl)⟩
theorem jpV0 (nnn : BitVec 12) : Statement (.jpV0 nnn) :=
  ⟨fits _, decide_eq_true (selects_nnn 11 (by decide) nnn _ rfl)⟩
theorem rnd (x : Reg) (kk : Byte) : Statement (.rnd x kk) :=
  ⟨fits _, decide_eq_true (selects_xkk 12 (by decide) x kk _ rfl)⟩
theorem drw (x y : Reg) (n : BitVec 4) : Statement (.drw x y n) :=
  ⟨fits _, decide_eq_true (selects_xyn 13 (by decide) x y n _ rfl)⟩
theorem skp (x : Reg) : Statement (.skp x) :=
  ⟨fits _, decide_eq_true (selects_x 14 158 (by decide) (by decide) x _ rfl)⟩
theorem sknp (x : Reg) : Statement (.sknp x) :=
  ⟨fits _, decide_eq_true (selects_x 14 161 (by decide) (by decide) x _ rfl)⟩
theorem ldVxDt (x : Reg) : Statement (.ldVxDt x) :=
  ⟨fits _, decide_eq_true (selects_x 15 7 (by decide) (by decide) x _ rfl)⟩
theorem ldVxK (x : Reg) : Statement (.ldVxK x) :=
  ⟨fits _, decide_eq_true (selects_x 15 10 (by decide) (by decide) x _ rfl)⟩
theorem ldDtVx (x : Reg) : Statement (.ldDtVx x) :=
  ⟨fits _, decide_eq_true (selects_x 15 21 (by decide) (by decide) x _ rfl)⟩
theorem ldStVx (x : Reg) : Statement (.ldStVx x) :=
  ⟨fits _, decide_eq_true (selects_x 15 24 (by decide) (by decide) x _ rfl)⟩
theorem addI (x : Reg) : Statement (.addI x) :=
  ⟨fits _, decide_eq_true (selects_x 15 30 (by decide) (by decide) x _ rfl)⟩
theorem ldF (x : Reg) : Statement (.ldF x) :=
  ⟨fits _, decide_eq_true (selects_x 15 41 (by decide) (by decide) x _ rfl)⟩
theorem ldB (x : Reg) : Statement (.ldB x) :=
  ⟨fits _, decide_eq_true (selects_x 15 51 (by decide) (by decide) x _ rfl)⟩
theorem storeRegs (x : Reg) : Statement (.storeRegs x) :=
  ⟨fits _, decide_eq_true (selects_x 15 85 (by decide) (by decide) x _ rfl)⟩
theorem loadRegs (x : Reg) : Statement (.loadRegs x) :=
  ⟨fits _, decide_eq_true (selects_x 15 101 (by decide) (by decide) x _ rfl)⟩

end Sys2Proof.Laws.EncodeRow
end

