-- ==== Sys2Proof/Laws/Step.lean ====
section
/-! SUPPORT. What the meanings with a condition can answer, and what a STEP can do, said once. -/

namespace Sys2Proof.Machine

variable {s t : State}

/-! ## Inversion of the meanings that can fault -/

/-- `00EE` answers: the top of the stack is in PC, or the stack was empty and only ERR changed (R80). -/
theorem execRet_cases (h : execRet s = .next t) :
    (∃ h0 : 0 < s.sp.val, t = { s with
        pc := s.stack[s.sp.val - 1]'(by have := s.sp.isLt; omega)
        sp := ⟨s.sp.val - 1, by have := s.sp.isLt; omega⟩ }) ∨
    (s.sp.val = 0 ∧ t = s.latch .stackUnderflow) := by
  by_cases h0 : 0 < s.sp.val
  · rw [execRet, popThen_pass h0] at h
    cases h
    exact .inl ⟨h0, rfl⟩
  · rw [execRet, popThen_empty (by omega)] at h
    cases h
    exact .inr ⟨by omega, rfl⟩

/-- `2nnn` answers: PC is pushed and set, or the stack was full and only ERR changed (R82). -/
theorem execCall_cases {nnn : BitVec 12} (h : execCall nnn s = .next t) :
    (∃ h16 : s.sp.val < 16, t = { s with
        pc := immAddr nnn
        stack := s.stack.set s.sp.val s.pc
        sp := ⟨s.sp.val + 1, Nat.succ_lt_succ h16⟩ }) ∨
    (s.sp.val = 16 ∧ t = s.latch .stackOverflow) := by
  by_cases h16 : s.sp.val < 16
  · rw [execCall, pushThen_pass h16] at h
    cases h
    exact .inl ⟨h16, rfl⟩
  · have h16' : s.sp.val = 16 := by have := s.sp.isLt; omega
    rw [execCall, pushThen_full h16'] at h
    cases h
    exact .inr ⟨h16', rfl⟩

/-- `Ex9E` and `ExA1` answer: a skip or not by the level of a key 0 to 15, or OutOfBounds(Key, Vx) and only ERR changed (R151, R152). -/
theorem skipOnKey_cases {x : Reg} {wanted : Bool} (h : skipOnKey x wanted s = .next t) :
    (∃ hk : (s.getV x).toNat < 16, t = s.skipIf (s.key[(s.getV x).toNat] == wanted)) ∨
    (15 < (s.getV x).toNat ∧ t = s.latch (.outOfBounds .key (s.getV x).toNat)) := by
  by_cases hk : (s.getV x).toNat < 16
  · rw [skipOnKey, State.keyLookup_of_lt hk] at h
    cases h
    exact .inl ⟨hk, rfl⟩
  · rw [skipOnKey, Config.chosen_keyIndexPolicy, State.keyLookup_fault (by omega)] at h
    cases h
    exact .inr ⟨by omega, rfl⟩

/-- `Fx0A` answers: with no key down PC goes back by 2, else the least key that is down is in Vx (R154). -/
theorem execLdVxK_cases {x : Reg} (h : execLdVxK x s = .next t) :
    (s.leastKey = none ∧ t = s.rewind) ∨ (∃ k, s.leastKey = some k ∧ t = s.setV x (BitVec.ofNat 8 k.val)) := by
  unfold execLdVxK at h
  cases hk : s.leastKey with
  | none => rw [hk] at h; cases h; exact .inl ⟨rfl, rfl⟩
  | some k => rw [hk] at h; cases h; exact .inr ⟨k, rfl, rfl⟩

/-! ## Inversion of a STEP -/

/-- A STEP that answers a next state did one of three things: a fault of the fetch, a fault of the decode, or the execution of the
instruction at PC on the state with PC advanced; and ERR was None before (R60, R177). -/
theorem step_cases (h : step s = .next t) :
    s.err = none ∧
    ((4095 ≤ s.pc.toNat ∧ t = s.latch (.outOfBounds .mem (max s.pc.toNat 4096))) ∨
     (s.pc.toNat ≤ 4094 ∧ (∀ i, decodeWord s.fetchWord ≠ .instr i) ∧ t = s.advance.latch (.unknownOpcode s.fetchWord)) ∨
     (∃ i, s.pc.toNat ≤ 4094 ∧ decodeWord s.fetchWord = .instr i ∧ exec i s.advance = .next t)) := by
  rcases s.front_cases with ⟨f, he, hf⟩ | ⟨he, hp, hf⟩ | ⟨he, hp, hd, hf⟩ | ⟨i, he, hp, hd, hf⟩ <;>
    simp only [step, hf] at h
  · cases h
  · cases h; exact ⟨he, .inl ⟨hp, rfl⟩⟩
  · cases h; exact ⟨he, .inr (.inl ⟨hp, hd, rfl⟩)⟩
  · exact ⟨he, .inr (.inr ⟨i, hp, hd, h⟩)⟩

/-! ## A placed word -/

/-- The word that `withFetchWord` places is the word the next STEP fetches, at a PC in range with no fault latched. -/
theorem State.fetchWord_withFetchWord {w : Word} (hm : s.mem.wf = true) :
    (s.withFetchWord 16 w.toNat).err = none ∧ (s.withFetchWord 16 w.toNat).pc.toNat ≤ 4094 ∧
      (s.withFetchWord 16 w.toNat).fetchWord = w := by
  have hp : (s.withFetchWord 16 w.toNat).pc.toNat ≤ 4094 := by
    simp only [State.withFetchWord]
    split
    · simp only [memSize] at *; omega
    · decide
  refine ⟨rfl, hp, ?_⟩
  have hl : (s.withFetchWord 16 w.toNat).pc.toNat + [highByte w, lowByte w].length ≤ memSize := by
    simp only [List.length_cons, List.length_nil, memSize]; omega
  have h0 := Memory.read_writeBytes_inside (j := 0) hm hl (by simp)
  have h1 := Memory.read_writeBytes_inside (j := 1) hm hl (by simp)
  have hmem : (s.withFetchWord 16 w.toNat).mem =
      s.mem.writeBytes (s.withFetchWord 16 w.toNat).pc.toNat [highByte w, lowByte w] := by
    simp only [State.withFetchWord, tableWord_16]
  rw [State.fetchWord, hmem, h1]
  simp only [Nat.add_zero] at h0
  rw [h0]
  exact wordOfBytes_highByte_lowByte w

/-- A STEP on a state prepared by `withFetchWord` executes exactly the placed instruction. -/
theorem step_withFetchWord {w : Word} {i : Instr} (hm : s.mem.wf = true) (hd : decodeWord w = .instr i) :
    step (s.withFetchWord 16 w.toNat) = exec i (s.withFetchWord 16 w.toNat).advance := by
  obtain ⟨he, hp, hw⟩ := State.fetchWord_withFetchWord (w := w) hm
  rcases State.front_cases (s.withFetchWord 16 w.toNat) with ⟨f, h, -⟩ | ⟨-, h, -⟩ | ⟨-, -, h, -⟩ | ⟨j, -, -, h, hf⟩
  · rw [he] at h; cases h
  · omega
  · exact absurd ((congrArg decodeWord hw).trans hd) (h i)
  · rw [hw, hd] at h
    cases h
    simp only [step, hf]

end Sys2Proof.Machine
end

