-- ==== Sys2Proof/Tests/Slice0.lean ====
section
/-! SUPPORT. The model's own tests. The expected values are those of spec/95_test_vectors.md (the vector's name stands in the docstring), of
the column 'encoding' of the opcode table, or worked by hand from the rule named. The theorems called witness_ show, for every
statement with hypotheses, concrete states and operands that meet all of them together. -/

set_option Elab.async false

namespace Sys2Proof.Tests

open Sys2Proof.Machine

/-! ## Helpers -/

/-- The reset state with the word `w` at PC = `pc`, then changed by `f`. -/
def place (pc w : Nat) (f : State → State := id) : State := f ((State.reset.setPc (BitVec.ofNat 16 pc)).withFetchWord 16 w)

/-- Set a register. -/
def reg (x : Reg) (b : Nat) (s : State) : State := s.setV x (BitVec.ofNat 8 b)

/-- Set I. -/
def idx (a : Nat) (s : State) : State := s.setI (BitVec.ofNat 16 a)

/-- Set bytes of memory. -/
def bytesAt (a : Nat) (bs : List Nat) (s : State) : State := s.setMem (s.mem.writeBytes a (bs.map (BitVec.ofNat 8)))

/-- Press a key. -/
def press (k : Fin 16) (s : State) : State := s.setKey k true

/-- Light a pixel. -/
def lit (r : Fin 32) (c : Fin 64) (s : State) : State := s.setFb (s.fb.set r ((s.fb[r]).set c true))

/-- Set SP and one stack slot. -/
def stackAt (sp : Fin 17) (j : Fin 16) (w : Word) (s : State) : State := { s with sp := sp, stack := s.stack.set j w }

/-- The next state of a STEP, if that is its outcome. -/
def next (s : State) : Option State :=
  match step s with
  | .next t => some t
  | .fault _ => none
  | .refused _ => none

/-- Whether the STEP on `s` answers a next state of which `p` holds. -/
def stepTo (s : State) (p : State → Bool) : Bool := (next s).any p

/-! ## WellFormed: what each check refuses -/

theorem test_field4_refuses_16 : fieldFits 4 16 = false ∧ fieldFits 4 15 = true := by decide
theorem test_field8_refuses_256 : fieldFits 8 256 = false ∧ fieldFits 8 255 = true := by decide
theorem test_field12_refuses_4096 : fieldFits 12 4096 = false ∧ fieldFits 12 4095 = true := by decide
theorem test_wellFormed_accepts_largest_operands : (Instr.drw 0xF 0xF 0xF).wellFormed = true := by decide
theorem test_romFits_refuses_3585_bytes : romFits (List.replicate 3585 0) = false ∧ romFits (List.replicate 3584 0) = true := by
  rw [romFits, romFits, List.length_replicate, List.length_replicate]
  decide
theorem test_memory_wf_refuses_falling_addresses : Memory.wf [(0x301, 1), (0x300, 1)] = false := by decide
theorem test_memory_wf_refuses_repeated_address : Memory.wf [(0x300, 1), (0x300, 2)] = false := by decide
theorem test_memory_wf_refuses_unlisted_value : Memory.wf [(0, 0xF0)] = false ∧ Memory.wf [(0x300, 0)] = false := by decide
theorem test_memory_wf_refuses_address_4096 : Memory.wf [(4096, 1)] = false ∧ Memory.wf [(4095, 1)] = true := by decide

/-! ## Decode: a word of every row, bit by bit from the column 'encoding' of the opcode table -/

theorem test_decode_00E0 : decodeWord 0b0000000011100000#16 = .instr .cls := by decide
theorem test_decode_00EE : decodeWord 0b0000000011101110#16 = .instr .ret := by decide
theorem test_decode_1nnn : decodeWord 0b0001001000000100#16 = .instr (.jp 0x204) := by decide
theorem test_decode_2nnn : decodeWord 0b0010001000001010#16 = .instr (.call 0x20A) := by decide
theorem test_decode_3xkk : decodeWord 0b0011000110000001#16 = .instr (.seImm 0x1 0x81) := by decide
theorem test_decode_4xkk : decodeWord 0b0100101000000101#16 = .instr (.sneImm 0xA 0x05) := by decide
theorem test_decode_5xy0 : decodeWord 0b0101000100100000#16 = .instr (.seReg 0x1 0x2) := by decide
theorem test_decode_6xkk : decodeWord 0b0110101001110111#16 = .instr (.ldImm 0xA 0x77) := by decide
theorem test_decode_7xkk : decodeWord 0b0111000111111110#16 = .instr (.addImm 0x1 0xFE) := by decide
theorem test_decode_8xy0 : decodeWord 0b1000000100100000#16 = .instr (.ldReg 0x1 0x2) := by decide
theorem test_decode_8xy1 : decodeWord 0b1000000100100001#16 = .instr (.orReg 0x1 0x2) := by decide
theorem test_decode_8xy2 : decodeWord 0b1000000100100010#16 = .instr (.andReg 0x1 0x2) := by decide
theorem test_decode_8xy3 : decodeWord 0b1000000100100011#16 = .instr (.xorReg 0x1 0x2) := by decide
theorem test_decode_8xy4 : decodeWord 0b1000000100100100#16 = .instr (.addReg 0x1 0x2) := by decide
theorem test_decode_8xy5 : decodeWord 0b1000000100100101#16 = .instr (.subReg 0x1 0x2) := by decide
theorem test_decode_8xy6 : decodeWord 0b1000000100100110#16 = .instr (.shr 0x1 0x2) := by decide
theorem test_decode_8xy7 : decodeWord 0b1000000100100111#16 = .instr (.subnReg 0x1 0x2) := by decide
theorem test_decode_8xyE : decodeWord 0b1000000100101110#16 = .instr (.shl 0x1 0x2) := by decide
theorem test_decode_9xy0 : decodeWord 0b1001000100100000#16 = .instr (.sneReg 0x1 0x2) := by decide
theorem test_decode_Annn : decodeWord 0b1010001100000001#16 = .instr (.ldI 0x301) := by decide
theorem test_decode_Bnnn : decodeWord 0b1011001100000001#16 = .instr (.jpV0 0x301) := by decide
theorem test_decode_Cxkk : decodeWord 0b1100000100001111#16 = .instr (.rnd 0x1 0x0F) := by decide
theorem test_decode_Dxyn : decodeWord 0b1101000100100011#16 = .instr (.drw 0x1 0x2 0x3) := by decide
theorem test_decode_Ex9E : decodeWord 0b1110000110011110#16 = .instr (.skp 0x1) := by decide
theorem test_decode_ExA1 : decodeWord 0b1110000110100001#16 = .instr (.sknp 0x1) := by decide
theorem test_decode_Fx07 : decodeWord 0b1111001000000111#16 = .instr (.ldVxDt 0x2) := by decide
theorem test_decode_Fx0A : decodeWord 0b1111001000001010#16 = .instr (.ldVxK 0x2) := by decide
theorem test_decode_Fx15 : decodeWord 0b1111001000010101#16 = .instr (.ldDtVx 0x2) := by decide
theorem test_decode_Fx18 : decodeWord 0b1111001000011000#16 = .instr (.ldStVx 0x2) := by decide
theorem test_decode_Fx1E : decodeWord 0b1111001000011110#16 = .instr (.addI 0x2) := by decide
theorem test_decode_Fx29 : decodeWord 0b1111001000101001#16 = .instr (.ldF 0x2) := by decide
theorem test_decode_Fx33 : decodeWord 0b1111001000110011#16 = .instr (.ldB 0x2) := by decide
theorem test_decode_Fx55 : decodeWord 0b1111001001010101#16 = .instr (.storeRegs 0x2) := by decide
theorem test_decode_Fx65 : decodeWord 0b1111001001100101#16 = .instr (.loadRegs 0x2) := by decide

/-- V-E1: the byte at the lower address is the high byte. -/
theorem test_decode_bytes_big_endian : decodeBytes [0x6A, 0x77, 0x12] = .instr (.ldImm 0xA 0x77) := by decide
theorem test_decode_rejects_short_input : decodeBytes [0x6A] = .truncated 1 := by decide
theorem test_decodeTableWord : decodeTableWord 16 0x8124 = some (.addReg 1 2) ∧ decodeTableWord 16 0x8128 = none := by
  decide +kernel

/-- V-E10 to V-E15: illegal words of every family that has any. -/
theorem test_illegal_words :
    decodeWord 0x0000 = .unknownOpcode 0x0000 ∧
    decodeWord 0x00E1 = .unknownOpcode 0x00E1 ∧
    decodeWord 0x0123 = .unknownOpcode 0x0123 ∧
    decodeWord 0x5001 = .unknownOpcode 0x5001 ∧
    decodeWord 0x8008 = .unknownOpcode 0x8008 ∧
    decodeWord 0x812F = .unknownOpcode 0x812F ∧
    decodeWord 0x9001 = .unknownOpcode 0x9001 ∧
    decodeWord 0xE09D = .unknownOpcode 0xE09D ∧
    decodeWord 0xF000 = .unknownOpcode 0xF000 ∧
    decodeWord 0xF1FF = .unknownOpcode 0xF1FF := by
  decide +kernel

/-! ## One STEP per test -/

/-- V-C8. -/
theorem test_ret_pops :
    stepTo (place 0x20C 0x00EE (stackAt 1 0 0x206)) (fun t => t.pc == 0x206 && t.sp == 0 && t.stack[0] == 0x206) = true := by decide +kernel
/-- V-C10. -/
theorem test_ret_underflow :
    stepTo (place 0x200 0x00EE) (fun t => t.err == some .stackUnderflow && t.sp == 0 && t.pc == 0x202) = true := by decide +kernel
/-- V-C5. -/
theorem test_call_pushes :
    stepTo (place 0x204 0x220A) (fun t => t.pc == 0x20A && t.sp == 1 && t.stack[0] == 0x206) = true := by decide +kernel
/-- V-C7. -/
theorem test_call_overflow :
    stepTo (place 0x200 0x2300 (stackAt 16 15 0x777)) (fun t => t.err == some .stackOverflow && t.sp == 16 && t.stack[15] == 0x777 && t.pc == 0x202) = true := by decide +kernel
/-- V-C4: an odd target. -/
theorem test_jp :
    stepTo (place 0x200 0x1203) (fun t => t.pc == 0x203) = true := by decide +kernel
/-- V-C23. -/
theorem test_jpV0_not_wrapped :
    stepTo (place 0x200 0xBFFF (reg 0 0xFF)) (fun t => t.pc == 0x10FE && t.err == none) = true := by decide +kernel
/-- V-C13. -/
theorem test_seImm_skips :
    stepTo (place 0x200 0x3FFF (reg 15 0xFF)) (fun t => t.pc == 0x204) = true := by decide +kernel
/-- V-C12. -/
theorem test_seImm_no_skip :
    stepTo (place 0x200 0x3100 (reg 1 4)) (fun t => t.pc == 0x202) = true := by decide +kernel
/-- V-C15. -/
theorem test_sneImm_skips :
    stepTo (place 0x200 0x4A05 (reg 10 6)) (fun t => t.pc == 0x204) = true := by decide +kernel
/-- V-C14. -/
theorem test_sneImm_no_skip :
    stepTo (place 0x200 0x4A05 (reg 10 5)) (fun t => t.pc == 0x202) = true := by decide +kernel
/-- V-C16. -/
theorem test_seReg_skips :
    stepTo (place 0x200 0x5120 (reg 1 7 ∘ reg 2 7)) (fun t => t.pc == 0x204) = true := by decide +kernel
/-- V-C17. -/
theorem test_seReg_no_skip :
    stepTo (place 0x200 0x5120 (reg 1 7 ∘ reg 2 8)) (fun t => t.pc == 0x202) = true := by decide +kernel
/-- V-C19. -/
theorem test_sneReg_skips :
    stepTo (place 0x200 0x9120 (reg 1 7 ∘ reg 2 8)) (fun t => t.pc == 0x204) = true := by decide +kernel
/-- V-C20. -/
theorem test_sneReg_no_skip :
    stepTo (place 0x200 0x9120 (reg 1 7 ∘ reg 2 7)) (fun t => t.pc == 0x202) = true := by decide +kernel
/-- V-A2. -/
theorem test_ldImm_vf :
    stepTo (place 0x200 0x6FAB) (fun t => t.getV 15 == 0xAB && t.getV 0 == 0) = true := by decide +kernel
/-- V-A4. -/
theorem test_addImm_no_flag :
    stepTo (place 0x200 0x7101 (reg 1 0xFF ∘ reg 15 0x55)) (fun t => t.getV 1 == 0 && t.getV 15 == 0x55) = true := by decide +kernel
/-- V-A29. -/
theorem test_ldReg :
    stepTo (place 0x200 0x8010 (reg 0 0x11 ∘ reg 1 0x22 ∘ reg 15 0x55)) (fun t => t.getV 0 == 0x22 && t.getV 1 == 0x22 && t.getV 15 == 0x55) = true := by decide +kernel
/-- V-A30. -/
theorem test_orReg :
    stepTo (place 0x200 0x8011 (reg 0 0xF0 ∘ reg 1 0x0F ∘ reg 15 0x55)) (fun t => t.getV 0 == 0xFF && t.getV 15 == 0x55) = true := by decide +kernel
/-- V-A31. -/
theorem test_andReg :
    stepTo (place 0x200 0x8012 (reg 0 0xF0 ∘ reg 1 0x3C ∘ reg 15 0x55)) (fun t => t.getV 0 == 0x30 && t.getV 15 == 0x55) = true := by decide +kernel
/-- V-A32. -/
theorem test_xorReg :
    stepTo (place 0x200 0x8013 (reg 0 0xF0 ∘ reg 1 0x3C ∘ reg 15 0x55)) (fun t => t.getV 0 == 0xCC && t.getV 15 == 0x55) = true := by decide +kernel
/-- V-A5. -/
theorem test_addReg_carry :
    stepTo (place 0x200 0x8014 (reg 0 0xC8 ∘ reg 1 0x64)) (fun t => t.getV 0 == 0x2C && t.getV 15 == 1) = true := by decide +kernel
/-- V-A41: the flag remains. -/
theorem test_addReg_into_vf :
    stepTo (place 0x200 0x8F14 (reg 15 1 ∘ reg 1 2)) (fun t => t.getV 15 == 0) = true := by decide +kernel
/-- V-A11. -/
theorem test_subReg_borrow :
    stepTo (place 0x200 0x8015 (reg 0 5 ∘ reg 1 0x0A)) (fun t => t.getV 0 == 0xFB && t.getV 15 == 0) = true := by decide +kernel
/-- V-A12: the comparison is strict. -/
theorem test_subReg_equal :
    stepTo (place 0x200 0x8015 (reg 0 7 ∘ reg 1 7 ∘ reg 15 9)) (fun t => t.getV 0 == 0 && t.getV 15 == 0) = true := by decide +kernel
/-- V-A15. -/
theorem test_subnReg :
    stepTo (place 0x200 0x8017 (reg 0 5 ∘ reg 1 0x0A)) (fun t => t.getV 0 == 5 && t.getV 15 == 1) = true := by decide +kernel
/-- V-A18. -/
theorem test_subnReg_borrow :
    stepTo (place 0x200 0x8017 (reg 0 0xFF ∘ reg 1 0 ∘ reg 15 9)) (fun t => t.getV 0 == 1 && t.getV 15 == 0) = true := by decide +kernel
/-- V-A19. -/
theorem test_shr_ignores_vy :
    stepTo (place 0x200 0x8016 (reg 0 5 ∘ reg 1 0x99)) (fun t => t.getV 0 == 2 && t.getV 15 == 1 && t.getV 1 == 0x99) = true := by decide +kernel
/-- V-A22. -/
theorem test_shr_logical :
    stepTo (place 0x200 0x8016 (reg 0 0xFE ∘ reg 15 9)) (fun t => t.getV 0 == 0x7F && t.getV 15 == 0) = true := by decide +kernel
/-- V-A24. -/
theorem test_shl_ignores_vy :
    stepTo (place 0x200 0x801E (reg 0 0x81 ∘ reg 1 0x99)) (fun t => t.getV 0 == 2 && t.getV 15 == 1 && t.getV 1 == 0x99) = true := by decide +kernel
/-- V-A45: the flag remains. -/
theorem test_shl_into_vf :
    stepTo (place 0x200 0x8F1E (reg 15 0x40)) (fun t => t.getV 15 == 0) = true := by decide +kernel
/-- V-M2. -/
theorem test_ldI :
    stepTo (place 0x200 0xAFFF) (fun t => t.i == 0xFFF) = true := by decide +kernel
/-- V-M5. -/
theorem test_addI_wraps :
    stepTo (place 0x200 0xF21E (idx 0xFF0 ∘ reg 2 0x20 ∘ reg 15 0x55)) (fun t => t.i == 0x010 && t.getV 15 == 0x55 && t.err == none) = true := by decide +kernel
/-- V-M13. -/
theorem test_ldF_whole_byte :
    stepTo (place 0x200 0xFA29 (reg 10 0xFF)) (fun t => t.i == 1275) = true := by decide +kernel
/-- V-M10. -/
theorem test_ldF_digit :
    stepTo (place 0x200 0xFA29 (reg 10 0x0A)) (fun t => t.i == 0x32) = true := by decide +kernel
/-- V-M14. -/
theorem test_ldB_digits :
    stepTo (place 0x200 0xF033 (reg 0 254 ∘ idx 0x300)) (fun t => t.mem.readBytes 0x300 3 == [2, 5, 4] && t.i == 0x300) = true := by decide +kernel
/-- R123: I = 4094, nothing is written. -/
theorem test_ldB_faults_whole :
    stepTo (place 0x200 0xF033 (reg 0 123 ∘ idx 4094)) (fun t => t.err == some (.outOfBounds .mem 4096) && t.mem.readBytes 4094 2 == [0, 0] && t.pc == 0x202) = true := by decide +kernel
/-- R124, its example. -/
theorem test_storeRegs :
    stepTo (place 0x200 0xF255 (reg 0 1 ∘ reg 1 2 ∘ reg 2 3 ∘ reg 3 9 ∘ idx 0x400)) (fun t => t.mem.readBytes 0x3FF 5 == [0, 1, 2, 3, 0] && t.i == 0x400) = true := by decide +kernel
/-- R124: I + x = 4096, nothing is written. -/
theorem test_storeRegs_faults_whole :
    stepTo (place 0x200 0xF155 (reg 0 7 ∘ idx 4095)) (fun t => t.err == some (.outOfBounds .mem 4096) && t.mem.read 4095 == 0) = true := by decide +kernel
/-- R125, its example. -/
theorem test_loadRegs :
    stepTo (place 0x200 0xF265 (bytesAt 0x300 [2, 5, 4, 9] ∘ idx 0x300)) (fun t => t.getV 0 == 2 && t.getV 1 == 5 && t.getV 2 == 4 && t.getV 3 == 0 && t.i == 0x300) = true := by decide +kernel
/-- R125: I + x = 4096, no register is written. -/
theorem test_loadRegs_faults_whole :
    stepTo (place 0x200 0xF165 (bytesAt 4095 [7] ∘ idx 4095)) (fun t => t.err == some (.outOfBounds .mem 4096) && t.getV 0 == 0) = true := by decide +kernel
/-- V-D19. -/
theorem test_cls :
    stepTo (place 0x200 0x00E0 (lit 3 3 ∘ lit 31 63 ∘ reg 15 0x55)) (fun t => !t.fb.pixel 3 3 && !t.fb.pixel 31 63 && t.draw && t.getV 15 == 0x55) = true := by decide +kernel
/-- R142 by hand, as S2 with the first and last bit only: column 60 and, wrapped, column 3. -/
theorem test_drw_wraps_columns :
    stepTo (place 0x200 0xD011 (reg 0 60 ∘ bytesAt 0x300 [0x81] ∘ idx 0x300)) (fun t => t.fb.pixel 0 60 && t.fb.pixel 0 3 && !t.fb.pixel 0 4 && t.getV 15 == 0 && t.draw) = true := by decide +kernel
/-- V-D15, with the pixel lit before: it is erased and VF = 1. -/
theorem test_drw_reads_vf_before_reset :
    stepTo (place 0x200 0xDF11 (lit 2 5 ∘ reg 15 5 ∘ reg 1 2 ∘ bytesAt 0x300 [0x80] ∘ idx 0x300)) (fun t => !t.fb.pixel 2 5 && t.getV 15 == 1) = true := by decide +kernel
/-- V-K1 to V-K5: the free byte under the mask; with mask 0 the result is 0 whatever the byte. -/
theorem test_rnd_mask_zero (s : State) : ∃ t, exec (.rnd 1 0x00) s = .next t ∧ t.getV 1 = 0 :=
  ⟨_, rfl, by simp⟩
/-- V-K6. -/
theorem test_skp_skips :
    stepTo (place 0x200 0xE19E (reg 1 5 ∘ press 5)) (fun t => t.pc == 0x204) = true := by decide +kernel
/-- V-K8. -/
theorem test_skp_faults :
    stepTo (place 0x200 0xE19E (reg 1 16 ∘ press 0)) (fun t => t.err == some (.outOfBounds .key 16) && t.pc == 0x202) = true := by decide +kernel
/-- V-K7b. -/
theorem test_sknp_no_skip :
    stepTo (place 0x200 0xE1A1 (reg 1 5 ∘ press 5)) (fun t => t.pc == 0x202) = true := by decide +kernel
/-- V-K7. -/
theorem test_sknp_skips :
    stepTo (place 0x200 0xE1A1 (reg 1 5)) (fun t => t.pc == 0x204) = true := by decide +kernel
/-- V-K12. -/
theorem test_ldVxK_lowest :
    stepTo (place 0x204 0xF10A (press 2 ∘ press 7)) (fun t => t.getV 1 == 2 && t.pc == 0x206) = true := by decide +kernel
/-- V-K10. -/
theorem test_ldVxK_waits :
    stepTo (place 0x204 0xF10A (reg 1 0xEE)) (fun t => t == place 0x204 0xF10A (reg 1 0xEE)) = true := by decide +kernel
/-- V-K16. -/
theorem test_ldVxDt :
    stepTo (place 0x200 0xF207 (fun s => (s.setDt 0x2A).setSt 0x11)) (fun t => t.getV 2 == 0x2A && t.dt == 0x2A && t.st == 0x11) = true := by decide +kernel
/-- V-K17. -/
theorem test_ldDtVx :
    stepTo (place 0x200 0xF015 (reg 0 3)) (fun t => t.dt == 3 && t.st == 0) = true := by decide +kernel
/-- V-K18. -/
theorem test_ldStVx :
    stepTo (place 0x200 0xF318 (reg 3 0x10)) (fun t => t.st == 0x10 && t.dt == 0) = true := by decide +kernel

/-! ## The front of a STEP and the latch -/

/-- V-E10. -/
theorem test_unknown_opcode :
    stepTo (place 0x200 0x0123) (fun t => t.err == some (.unknownOpcode 0x0123) && t.pc == 0x202) = true := by decide +kernel
/-- V-F1: PC = 4095. -/
theorem test_fetch_fault :
    stepTo (State.reset.setPc 4095) (fun t => t.err == some (.outOfBounds .mem 4096) && t.pc == 4095) = true := by decide +kernel
/-- V-C23, the next STEP. -/
theorem test_fetch_fault_payload :
    stepTo (State.reset.setPc 0x10FE) (fun t => t.err == some (.outOfBounds .mem 0x10FE) && t.pc == 0x10FE) = true := by decide +kernel
/-- V-F3: a latched fault is returned and nothing is executed. -/
theorem test_latched_step :
    (place 0x202 0x6011 (State.latch · .stackUnderflow)).apply .step =
      (.stepped (some .stackUnderflow), place 0x202 0x6011 (State.latch · .stackUnderflow)) := by decide +kernel
/-- V-F6: after RESET alone the word 0x0000 is fetched. -/
theorem test_step_after_reset : stepTo State.reset (fun t => t.err == some (.unknownOpcode 0) && t.pc == 0x202) = true := by
  decide +kernel

/-! ## Host events -/

/-- V-T2, its first two TICKs: the pulse is on the second. -/
theorem test_tick_pulse :
    (State.reset.setSt 2).tick.1 = false ∧ (State.reset.setSt 2).tick.2.st = 1 ∧ (State.reset.setSt 2).tick.2.tick.1 = true := by
  decide +kernel
/-- V-T3: one TICK acts on both counters. -/
theorem test_tick_both : (((State.reset.setSt 1).setDt 255).tick.2.st, ((State.reset.setSt 1).setDt 255).tick.2.dt) = (0, 254) := by
  decide +kernel
/-- V-H3: a key outside 0 to 15 is a no-op. -/
theorem test_key_out_of_range : State.reset.keyDown 16 = State.reset ∧ (press 3 State.reset).keyUp 255 = press 3 State.reset := by
  decide +kernel
/-- V-H1. -/
theorem test_key_down_up : (State.reset.keyDown 3).key[3] = true ∧ ((State.reset.keyDown 3).keyUp 3).key[3] = false := by
  decide +kernel
/-- V-H4. -/
theorem test_take_draw_flag :
    (State.reset.setDraw true).takeDrawFlag = (true, State.reset) ∧ State.reset.takeDrawFlag = (false, State.reset) := by
  decide +kernel
/-- V-L3 for a 2-byte ROM: memory is rewritten, KEY is kept, DRAW is set. -/
theorem test_load :
    let t := ((bytesAt 0x202 [9] ∘ bytesAt 0 [0] ∘ press 2 ∘ reg 3 9) State.reset).load [0x12, 0x00]
    t.1 = .ok ∧ t.2.mem.readBytes 0x200 3 = [0x12, 0x00, 0x00] ∧ t.2.mem.read 0 = 0xF0 ∧ t.2.key[2] = true ∧ t.2.draw = true ∧
      t.2.getV 3 = 0 := by decide +kernel
/-- The flat presentation: cell r * 64 + c (R19). -/
theorem test_flat_frame : (lit 1 2 State.reset).fb.flat.findIdx? id = some 66 := by decide +kernel

/-! ## The placing of a word -/

theorem test_withFetchWord_is_fetched : (State.reset.withFetchWord 16 0x6A77).fetchWord = 0x6A77 := by decide +kernel
theorem test_withFetchWord_runs : stepTo (State.reset.withFetchWord 16 0x6A77) (fun t => t.getV 0xA == 0x77) = true := by
  decide +kernel

/-! ## Witnesses: the hypotheses of every statement that has any are met together -/

/-- O2. -/
theorem witness_DecodeOfEncodeIsInstruction : (Instr.shl 0xF 0xE).wellFormed = true := by decide
/-- O3. -/
theorem witness_EncodeOfDecodeIsWord : decodeWord 0x8FEE = .instr (.shl 0xF 0xE) := by decide
/-- O4: a row that is selected, and a word that selects none. -/
theorem witness_DecodeFollowsOpcodeMap :
    (Instr.cls.row ∈ opcodeTable ∧ Instr.cls.row.selects 0x00E0 = true) ∧ (∀ r ∈ opcodeTable, r.selects 0xFFFF = false) := by
  decide +kernel
/-- O7, at PC = 4094 (V-F2). -/
theorem witness_StepRunsTheDecodedInstruction :
    (place 4094 0x6077).err = none ∧ (place 4094 0x6077).pc.toNat ≤ 4094 ∧
    decodeBytes [(place 4094 0x6077).mem.read (place 4094 0x6077).pc.toNat,
      (place 4094 0x6077).mem.read ((place 4094 0x6077).pc.toNat + 1)] = .instr (.ldImm 0 0x77) := by decide +kernel
/-- O8, at PC = 4094. -/
theorem witness_StepLatchesUnknownOpcode :
    (place 4094 0xFFFF).err = none ∧ (place 4094 0xFFFF).pc.toNat ≤ 4094 ∧
    (0xFFFF#16 = (place 4094 0xFFFF).mem.read (place 4094 0xFFFF).pc.toNat ++
      (place 4094 0xFFFF).mem.read ((place 4094 0xFFFF).pc.toNat + 1)) ∧ decodeWord 0xFFFF = .unknownOpcode 0xFFFF := by decide +kernel
/-- O9, at the least such PC. -/
theorem witness_StepLatchesFetchFault : (State.reset.setPc 4095).err = none ∧ 4095 ≤ (State.reset.setPc 4095).pc.toNat := by
  decide +kernel
/-- O10. -/
theorem witness_StepOnLatchedFaultReturnsIt : (State.reset.latch .stackOverflow).err = some .stackOverflow := by decide +kernel
/-- O13: the last slot, and the full stack. -/
theorem witness_CallPushesPcOrOverflows :
    (15 : Fin 16).val = (stackAt 15 0 0 State.reset).sp.val ∧ (stackAt 16 0 0 State.reset).sp.val = 16 := by decide +kernel
/-- O14: the full stack, one entry, and the empty stack. -/
theorem witness_ReturnPopsPcOrUnderflows :
    (15 : Fin 16).val + 1 = (stackAt 16 0 0 State.reset).sp.val ∧ (0 : Fin 16).val + 1 = (stackAt 1 0 0 State.reset).sp.val ∧
    State.reset.sp.val = 0 := by decide +kernel
/-- O15. -/
theorem witness_ReturnComesBackAfterTheCall :
    ∃ t u : State, (stackAt 15 0 0 State.reset).sp.val < 16 ∧ exec (.call 0x300) (stackAt 15 0 0 State.reset) = .next t ∧
      u.sp = t.sp ∧ u.stack = t.stack ∧ u.pc ≠ t.pc :=
  ⟨_, reg 1 5 (stackAt 16 15 0x200 State.reset), by decide +kernel, rfl, by decide +kernel, by decide +kernel, by decide +kernel⟩
/-- O16. -/
theorem witness_SixteenNestedCallsThenOverflow :
    (List.replicate 16 (0x200 : BitVec 12)).length = 16 ∧ State.reset.sp.val = 0 ∧ State.reset.err = none := by decide +kernel
/-- O19 and O20: x is not F. -/
theorem witness_AddAndSubtractWriteResultThenFlag : (0xE : Reg) ≠ VF := by decide
/-- O21: a flag-defining instruction without a fault, a register it does not name, and VF of one that defines no flag. -/
theorem witness_RegistersWrittenOnlyAsTheTableSays :
    (∃ t, exec (.addReg 1 2) State.reset = .next t ∧ t.err = none) ∧ Instr.definesFlag (.addReg 1 2) = true ∧ State.reset.err = none ∧
    Instr.isDest 3 (.addReg 1 2) = false ∧ 3 ≠ VF ∧ Instr.isDest VF (.ldImm 1 2) = false ∧ Instr.definesFlag (.ldImm 1 2) = false :=
  ⟨⟨_, rfl, by decide +kernel⟩, by decide +kernel⟩
/-- O23: the last I in range, and the two above it. -/
theorem witness_DecimalDigitsAreStoredAtI :
    State.reset.mem.wf = true ∧ (idx 4093 State.reset).effAddr 2 ≤ 4095 ∧
    (idx 4094 State.reset).i.toNat ≤ 4095 ∧ 4095 < (idx 4094 State.reset).effAddr 2 ∧
    (idx 4095 State.reset).i.toNat ≤ 4095 ∧ 4095 < (idx 4095 State.reset).effAddr 2 := by decide +kernel
/-- O24 and O25 (O25 needs no `wf`): x = F at the last I in range, and one above it. -/
theorem witness_RegistersAreStoredAtI :
    State.reset.mem.wf = true ∧ (idx 4080 State.reset).effAddr (0xF : Reg).val ≤ 4095 ∧
    (idx 4081 State.reset).i.toNat ≤ 4095 ∧ 4095 < (idx 4081 State.reset).effAddr (0xF : Reg).val := by decide +kernel
/-- O25: a register up to x and one above it, with x = E; the fault with x = 1 and I = 4095. -/
theorem witness_RegistersAreLoadedFromI :
    (idx 4081 State.reset).effAddr (0xE : Reg).val ≤ 4095 ∧ (0xE : Reg) ≤ 0xE ∧ (0xE : Reg) < 0xF ∧
    (idx 4095 State.reset).i.toNat ≤ 4095 ∧ 4095 < (idx 4095 State.reset).effAddr (0x1 : Reg).val := by decide +kernel
/-- O26. -/
theorem witness_LoadAfterStoreRestoresRegisters :
    State.reset.mem.wf = true ∧ (idx 4080 State.reset).effAddr (0xF : Reg).val ≤ 4095 ∧
    ∃ t, exec (.storeRegs 0xF) (idx 4080 State.reset) = .next t :=
  ⟨by decide +kernel, by decide +kernel, _, rfl⟩
/-- O27, with the smallest x. -/
theorem witness_StoredBytesAreFetched :
    State.reset.mem.wf = true ∧ 1 ≤ (0x1 : Reg).val ∧ (idx 4094 State.reset).effAddr (0x1 : Reg).val ≤ 4095 ∧
    ∃ t, exec (.storeRegs 0x1) (idx 4094 State.reset) = .next t :=
  ⟨by decide +kernel, by decide +kernel, by decide +kernel, _, rfl⟩
/-- O29: no rows at I = 4095; the last row at 4095, with a covered and an uncovered pixel; one row too many. -/
theorem witness_DrawInvertsExactlyTheCoveredPixels :
    ((0 : BitVec 4) = 0 ∨ (idx 4095 State.reset).effAddr 0 ≤ 4096) ∧ (idx 4095 State.reset).effAddr (1 : BitVec 4).toNat ≤ 4096 ∧
    SpriteCovers (idx 4095 (bytesAt 4095 [0x80] State.reset)) 0 0 1 0 0 ∧
    ¬ SpriteCovers (idx 4095 (bytesAt 4095 [0x80] State.reset)) 0 0 1 1 0 ∧
    (2 : BitVec 4) ≠ 0 ∧ (idx 4095 State.reset).i.toNat ≤ 4095 ∧ 4096 < (idx 4095 State.reset).effAddr (2 : BitVec 4).toNat := by
  refine ⟨by decide +kernel, by decide +kernel, ⟨0, by decide, 0, by decide, by decide +kernel, by decide +kernel, by decide +kernel⟩, ?_,
    by decide +kernel, by decide +kernel, by decide +kernel⟩
  rintro ⟨row, hr, bit, -, -, -, h⟩
  have : row = 0 := by omega
  subst this
  revert h
  decide +kernel
/-- O30. -/
theorem witness_SecondIdenticalDrawErases :
    (idx 4091 State.reset).effAddr (5 : BitVec 4).toNat ≤ 4096 ∧ ∃ t, exec (.drw 0 1 5) (idx 4091 State.reset) = .next t :=
  ⟨by decide +kernel, _, rfl⟩
/-- O32: the last key, and the first index that is none. -/
theorem witness_KeySkipsTestTheLevel :
    ((reg 1 15 State.reset).getV 1).toNat = (15 : Fin 16).val ∧ 15 < ((reg 1 16 State.reset).getV 1).toNat := by decide +kernel
/-- O33: only the last key down; no key down; and the STEP. -/
theorem witness_KeyWaitTakesTheLowestKeyOrRewinds :
    ((press 15 State.reset).key[(15 : Fin 16)] = true ∧ ∀ j : Fin 16, j < 15 → (press 15 State.reset).key[j] = false) ∧
    (place 4094 0xF10A).err = none ∧ (place 4094 0xF10A).pc.toNat ≤ 4094 ∧
    decodeWord (place 4094 0xF10A).fetchWord = .instr (.ldVxK 1) ∧ ∀ k : Fin 16, (place 4094 0xF10A).key[k] = false := by
  decide +kernel
/-- O35. -/
theorem witness_ElementsWrittenOnlyAsTheTableSays : ∃ t, exec (.storeRegs 0xF) (idx 4080 State.reset) = .next t ∧ t.err = none :=
  ⟨_, rfl, by decide +kernel⟩
/-- O36, at the largest I. -/
theorem witness_InstructionsRaiseOnlyTheListedFaults :
    (idx 4095 State.reset).err = none ∧ (idx 4095 State.reset).i.toNat ≤ 4095 := by decide +kernel
/-- O37: a fault of the fetch and a fault of an instruction. -/
theorem witness_FaultsArePrecise :
    (State.reset.setPc 4095).err = none ∧ stepTo (State.reset.setPc 4095) (fun t => t.err.isSome) = true ∧
    (place 4094 0x00EE).err = none ∧ stepTo (place 4094 0x00EE) (fun t => t.err.isSome) = true := by decide +kernel
/-- O38: a LOAD of each side of the bound, and an event of neither kind. -/
theorem witness_OnlyResetAndLoadClearAFault :
    (State.reset.latch .stackUnderflow).err = some .stackUnderflow ∧ (List.replicate 3584 (0 : Byte)).length ≤ 3584 ∧
    3584 < (List.replicate 3585 (0 : Byte)).length ∧ (Event.tick ≠ .reset ∧ ∀ bytes, Event.tick = .load bytes → 3584 < bytes.length) := by
  refine ⟨by decide +kernel, by rw [List.length_replicate], by rw [List.length_replicate]; decide, by decide, ?_⟩
  intro bytes h
  cases h
/-- O39: two states that differ in ST and DRAW. -/
theorem witness_NoInstructionReadsStOrDraw :
    State.reset.hideOutputs = ((State.reset.setSt 5).setDraw true).hideOutputs ∧ State.reset ≠ (State.reset.setSt 5).setDraw true := by
  decide +kernel
/-- O40 (V-C2). -/
theorem witness_QuiescentStateIsAFixedPoint : (place 0x200 0x1200).quiescent :=
  ⟨by decide +kernel, by decide +kernel, 0x200, by decide +kernel, by decide +kernel⟩
/-- O42 and O43: a state of the invariant with a return address in use and memory that lists a cell, and its STEP. -/
theorem witness_StepKeepsTheInvariant :
    Inv (place 0x200 0x00EE (stackAt 1 0 4098)) ∧ stepTo (place 0x200 0x00EE (stackAt 1 0 4098)) (fun t => t.pc == 4098) = true :=
  ⟨⟨by decide +kernel, by decide +kernel, by decide +kernel, by decide +kernel⟩, by decide +kernel⟩
/-- O46: the first k that names no key. -/
theorem witness_KeyEventsSetOneLevel : 16 ≤ (16 : Nat) := Nat.le_refl 16
/-- O48: the largest ROM. -/
theorem witness_LoadGivesTheLaunchState : (List.replicate 3584 (0xAB : Byte)).length ≤ 3584 := by
  rw [List.length_replicate]
/-- O49: the smallest that is too large. -/
theorem witness_TooLargeLoadChangesNothing : 3584 < (List.replicate 3585 (0 : Byte)).length := by
  rw [List.length_replicate]; decide
/-- O50. -/
theorem witness_LoadedProgramRunsFromItsFirstWord :
    ([0x60, 0x05] : List Byte).length ≤ 3584 ∧ decodeWord (0x60#8 ++ 0x05#8) = .instr (.ldImm 0 5) := by decide

end Sys2Proof.Tests
end

/-! # The invariant along every interleaving of events (O43) -/

namespace Sys2Proof.Machine

variable {s t : State}

/-! ## What keeps the invariant, one lemma per state operation -/

/-- The invariant speaks of memory, I, PC, the stack and SP alone. -/
theorem Inv.congr (hs : Inv s) (hmem : t.mem = s.mem) (hi : t.i = s.i) (hpc : t.pc = s.pc) (hstack : t.stack = s.stack)
    (hsp : t.sp = s.sp) : Inv t where
  mem_wf := hmem ▸ hs.mem_wf
  i_lt := hi ▸ hs.i_lt
  pc_le := hpc ▸ hs.pc_le
  stack_le := by rw [hstack, hsp]; exact hs.stack_le

theorem Inv.setV (hs : Inv s) (x : Reg) (b : Byte) : Inv (s.setV x b) := hs.congr rfl rfl rfl rfl rfl
theorem Inv.setRegs (hs : Inv s) (v : Vector Byte 16) : Inv (s.setRegs v) := hs.congr rfl rfl rfl rfl rfl
theorem Inv.setDt (hs : Inv s) (b : Byte) : Inv (s.setDt b) := hs.congr rfl rfl rfl rfl rfl
theorem Inv.setSt (hs : Inv s) (b : Byte) : Inv (s.setSt b) := hs.congr rfl rfl rfl rfl rfl
theorem Inv.setKey (hs : Inv s) (k : Fin 16) (d : Bool) : Inv (s.setKey k d) := hs.congr rfl rfl rfl rfl rfl
theorem Inv.setFb (hs : Inv s) (fb : Frame) : Inv (s.setFb fb) := hs.congr rfl rfl rfl rfl rfl
theorem Inv.setDraw (hs : Inv s) (d : Bool) : Inv (s.setDraw d) := hs.congr rfl rfl rfl rfl rfl
theorem Inv.latch (hs : Inv s) (f : Fault) : Inv (s.latch f) := hs.congr rfl rfl rfl rfl rfl
theorem Inv.countDraw (hs : Inv s) : Inv s.countDraw := hs.congr rfl rfl rfl rfl rfl

theorem Inv.setResultFlag (hs : Inv s) (c : Bool) (x : Reg) (result flag : Byte) :
    Inv (s.setResultFlag c x result flag) := by
  obtain ⟨v, hv⟩ := s.setResultFlag_eq_setRegs c x result flag
  exact hv ▸ hs.setRegs v

theorem Inv.setMem (hs : Inv s) {m : Memory} (hm : m.wf = true) : Inv (s.setMem m) := { hs with mem_wf := hm }

theorem Inv.setI (hs : Inv s) {w : Word} (hw : w.toNat < 4096) : Inv (s.setI w) := { hs with i_lt := hw }

theorem Inv.setPc (hs : Inv s) {w : Word} (hw : w.toNat ≤ 4350) : Inv (s.setPc w) := { hs with pc_le := hw }

theorem Inv.advance (hs : Inv s) (hpc : s.pc.toNat ≤ 4096) : Inv s.advance := hs.setPc (by bv_omega)

theorem Inv.skipIf (hs : Inv s) (hpc : s.pc.toNat ≤ 4096) (c : Bool) : Inv (s.skipIf c) := by
  cases c with
  | false => exact hs
  | true => exact hs.advance hpc

/-- Bytes stored at I after a passed bounds check. -/
theorem Inv.setMem_writeBytes (hs : Inv s) {bs : List Byte} (h : s.i.toNat + bs.length ≤ 4096) :
    Inv (s.setMem (s.mem.writeBytes (s.effAddr 0) bs)) :=
  hs.setMem (Memory.wf_writeBytes hs.mem_wf h)

/-! ## The execution of an instruction

The hypotheses on PC are what the fetch leaves: PC is the address of the instruction, at most 4094, plus 2 (R60). -/

/-- A guarded access keeps the invariant when its continuation does after a passed check. -/
theorem inv_of_guardRange {len : Nat} {k : State → Result} (hs : Inv s) (h : guardRange len s k = .next t)
    (hk : len = 0 ∨ s.i.toNat + len ≤ 4096 → k s = .next t → Inv t) : Inv t := by
  obtain ⟨hpass, ht⟩ | ⟨-, -, rfl⟩ := guardRange_cases h
  · exact hk hpass ht
  · exact hs.latch _

theorem inv_of_execDrw {x y : Reg} {n : BitVec 4} (hs : Inv s) (h : execDrw x y n s = .next t) : Inv t := by
  refine inv_of_guardRange hs h fun _ ht => ?_
  cases ht
  exact ((hs.setFb _).setDraw _).setV _ _

theorem inv_of_execLdB {x : Reg} (hs : Inv s) (h : execLdB x s = .next t) : Inv t := by
  refine inv_of_guardRange hs h fun hpass ht => ?_
  cases ht
  exact hs.setMem_writeBytes (by rw [decimalDigits_length]; omega)

theorem inv_of_execStoreRegs {x : Reg} (hs : Inv s) (h : execStoreRegs x s = .next t) : Inv t := by
  refine inv_of_guardRange hs h fun hpass ht => ?_
  cases ht
  exact hs.setMem_writeBytes (by rw [State.length_regRange]; omega)

theorem inv_of_execLoadRegs {x : Reg} (hs : Inv s) (h : execLoadRegs x s = .next t) : Inv t := by
  refine inv_of_guardRange hs h fun _ ht => ?_
  cases ht
  exact hs.setRegs _

/-- The popped address is at most 4098, and fewer slots are in use. -/
theorem inv_of_execRet (hs : Inv s) (h : execRet s = .next t) : Inv t := by
  obtain ⟨h0, rfl⟩ | ⟨-, rfl⟩ := execRet_cases h
  · have htop := hs.stack_le ⟨s.sp.val - 1, by omega⟩ (by simp only; omega)
    exact { hs with
      pc_le := Nat.le_trans htop (by decide)
      stack_le := fun j hj => hs.stack_le j (by simp only at hj; omega) }
  · exact hs.latch _

/-- The pushed address is the advanced PC, at most 4096; the slots below it keep theirs. -/
theorem inv_of_execCall {nnn : BitVec 12} (hs : Inv s) (hpc : s.pc.toNat ≤ 4096) (h : execCall nnn s = .next t) :
    Inv t := by
  obtain ⟨h16, rfl⟩ | ⟨-, rfl⟩ := execCall_cases h
  · refine { hs with pc_le := by rw [immAddr_toNat]; omega, stack_le := fun j hj => ?_ }
    simp only [Fin.getElem_fin, Vector.getElem_set]
    split
    · omega
    · exact hs.stack_le j (by simp only at hj; omega)
  · exact hs.latch _

theorem inv_of_skipOnKey {x : Reg} {wanted : Bool} (hs : Inv s) (hpc : s.pc.toNat ≤ 4096)
    (h : skipOnKey x wanted s = .next t) : Inv t := by
  obtain ⟨-, rfl⟩ | ⟨-, rfl⟩ := skipOnKey_cases h
  · exact hs.skipIf hpc _
  · exact hs.latch _

/-- Going back by 2 does not wrap below 0, since the fetch has advanced PC by 2. -/
theorem inv_of_execLdVxK {x : Reg} (hs : Inv s) (h2 : 2 ≤ s.pc.toNat) (h : execLdVxK x s = .next t) : Inv t := by
  obtain ⟨-, rfl⟩ | ⟨k, -, rfl⟩ := execLdVxK_cases h
  · exact hs.setPc (by have := hs.pc_le; bv_omega)
  · exact hs.setV _ _

/-- Every instruction keeps the invariant on a state whose PC the fetch has advanced. -/
theorem exec_keeps_inv {i : Instr} (hs : Inv s) (h2 : 2 ≤ s.pc.toNat) (hpc : s.pc.toNat ≤ 4096)
    (h : exec i s = .next t) : Inv t := by
  cases i with
  | cls => cases h; exact (hs.setFb _).setDraw _
  | ret => exact inv_of_execRet hs h
  | jp nnn => cases h; exact hs.setPc (by rw [immAddr_toNat]; omega)
  | call nnn => exact inv_of_execCall hs hpc h
  | jpV0 nnn =>
    cases h
    have hsum : (immAddr nnn + s.regWord 0).toNat = nnn.toNat + (s.getV 0).toNat := by
      rw [BitVec.toNat_add_of_lt (by simp only [immAddr_toNat, State.regWord_toNat]; omega), immAddr_toNat,
        State.regWord_toNat]
    exact hs.setPc (by omega)
  | seImm | sneImm | seReg | sneReg => cases h; exact hs.skipIf hpc _
  | ldImm | addImm | ldReg | orReg | andReg | xorReg | ldVxDt => cases h; exact hs.setV _ _
  | addReg | subReg | shr | subnReg | shl => cases h; exact hs.setResultFlag _ _ _ _
  | ldI nnn => cases h; exact hs.setI (by rw [immAddr_toNat]; omega)
  | addI x => cases h; exact hs.setI (by rw [BitVec.toNat_umod]; exact Nat.mod_lt _ (by decide))
  | ldF x =>
    cases h
    have hprod : (s.regWord x * 5).toNat ≤ (s.getV x).toNat * 5 := by
      rw [BitVec.toNat_mul, State.regWord_toNat]; exact Nat.mod_le _ _
    exact hs.setI (by omega)
  | rnd => cases h; exact (hs.setV _ _).countDraw
  | drw => exact inv_of_execDrw hs h
  | skp | sknp => exact inv_of_skipOnKey hs hpc h
  | ldVxK => exact inv_of_execLdVxK hs h2 h
  | ldDtVx => cases h; exact hs.setDt _
  | ldStVx => cases h; exact hs.setSt _
  | ldB => exact inv_of_execLdB hs h
  | storeRegs => exact inv_of_execStoreRegs hs h
  | loadRegs => exact inv_of_execLoadRegs hs h

/-! ## The events -/

/-- A STEP that answers a next state keeps the invariant, whether it faults or executes an instruction. -/
theorem step_keeps_inv (hs : Inv s) (h : step s = .next t) : Inv t := by
  obtain ⟨-, ⟨-, rfl⟩ | ⟨hpc, -, rfl⟩ | ⟨i, hpc, -, hexec⟩⟩ := step_cases h
  · exact hs.latch _
  · exact (hs.advance (by omega)).latch _
  · have hadv : s.advance.pc.toNat = s.pc.toNat + 2 := by rw [State.pc_advance]; bv_omega
    exact exec_keeps_inv (hs.advance (by omega)) (by omega) (by omega) hexec

theorem stepEvent_keeps_inv (hs : Inv s) : Inv s.stepEvent.2 := by
  unfold State.stepEvent
  split
  · exact step_keeps_inv hs ‹_›
  · exact hs
  · exact hs

/-- With an empty stack, I = 0 and PC at the entry point, the invariant is about memory alone. -/
theorem inv_of_launch (hmem : s.mem.wf = true) (hi : s.i = 0) (hpc : s.pc = 0x200) (hsp : s.sp = 0) : Inv s where
  mem_wf := hmem
  i_lt := by rw [hi]; decide
  pc_le := by rw [hpc]; decide
  stack_le := fun j hj => by rw [hsp] at hj; exact absurd hj (Nat.not_lt_zero _)

theorem inv_resetEvent (s : State) : Inv s.resetEvent := inv_of_launch Memory.wf_nil rfl rfl rfl

theorem load_keeps_inv (hs : Inv s) (bytes : List Byte) : Inv (s.load bytes).2 := by
  unfold State.load
  split
  · have hlen : bytes.length ≤ 3584 := of_decide_eq_true ‹_›
    exact inv_of_launch (Memory.wf_image (by simp only [progBase, memSize]; omega)) rfl rfl rfl
  · exact hs

theorem keyEvent_keeps_inv (hs : Inv s) (k : Nat) (down : Bool) : Inv (s.keyEvent k down) := by
  unfold State.keyEvent
  split
  · exact hs.setKey _ _
  · exact hs

theorem apply_keeps_inv (hs : Inv s) (e : Event) : Inv (s.apply e).2 := by
  cases e with
  | reset => exact inv_resetEvent s
  | load bytes => exact load_keeps_inv hs bytes
  | step => exact stepEvent_keeps_inv hs
  | tick => exact (hs.setDt _).setSt _
  | keyDown k => exact keyEvent_keeps_inv hs k true
  | keyUp k => exact keyEvent_keeps_inv hs k false
  | takeDrawFlag => exact hs.setDraw false
  | readFb => exact hs

theorem runEvents_keeps_inv (es : List Event) (hs : Inv s) : Inv (s.runEvents es) := by
  induction es generalizing s with
  | nil => exact hs
  | cons e es ih => exact ih (apply_keeps_inv hs e)

/-- Settles O43, by induction on the list of events: each of the eight keeps the invariant. -/
theorem everyInterleavingKeepsTheInvariant : Obligations.EveryInterleavingKeepsTheInvariant :=
  fun _ es hs => runEvents_keeps_inv es hs

end Sys2Proof.Machine

/-! # The invariant at RESET and along one STEP (O41, O42) -/

namespace Sys2Proof.Machine

/-- Settles O42: a STEP raises a fault of the fetch or of the decode, or executes an instruction on the advanced PC; each keeps the
invariant. -/
theorem stepKeepsTheInvariant : Obligations.StepKeepsTheInvariant := fun _ _ hs h => step_keeps_inv hs h

/-- Settles O41: memory lists nothing, I is 0, PC is the entry point and the stack is empty. -/
theorem resetMeetsTheInvariant : Obligations.ResetMeetsTheInvariant := inv_of_launch Memory.wf_nil rfl rfl rfl

end Sys2Proof.Machine

/-! # What an instruction may write: the frame of the elements (O35) and of the registers (O21) -/

namespace Sys2Proof.Machine

variable {s t u : State} {c d : List Element}

/-! ## The frame of the elements -/

/-- The frame, element by element. -/
theorem sameBut_iff : SameBut c s t ↔
    (.mem ∉ c → ∀ a, t.mem.read a = s.mem.read a) ∧ (.v ∉ c → t.v = s.v) ∧ (.i ∉ c → t.i = s.i) ∧
    (.pc ∉ c → t.pc = s.pc) ∧ (.stack ∉ c → t.stack = s.stack) ∧ (.sp ∉ c → t.sp = s.sp) ∧ (.dt ∉ c → t.dt = s.dt) ∧
    (.st ∉ c → t.st = s.st) ∧ (.key ∉ c → t.key = s.key) ∧ (.fb ∉ c → t.fb = s.fb) ∧ (.draw ∉ c → t.draw = s.draw) ∧
    (.err ∉ c → t.err = s.err) ∧ (.draws ∉ c → t.draws = s.draws) := by
  constructor
  · intro h
    exact ⟨h .mem, h .v, h .i, h .pc, h .stack, h .sp, h .dt, h .st, h .key, h .fb, h .draw, h .err, h .draws⟩
  · rintro ⟨hmem, hv, hi, hpc, hstack, hsp, hdt, hst, hkey, hfb, hdraw, herr, hdraws⟩ e
    cases e <;> assumption

theorem SameBut.mono (h : SameBut c s t) (hcd : c ⊆ d) : SameBut d s t := fun e he => h e fun hc => he (hcd hc)

/-- Two changes one after another change what either may change. -/
theorem SameBut.trans (h : SameBut c s t) (h' : SameBut d t u) : SameBut (c ++ d) s u := by
  intro e he
  rw [List.mem_append, not_or] at he
  have hst := h e he.1
  have htu := h' e he.2
  cases e with
  | mem => exact fun a => (htu a).trans (hst a)
  | _ => exact Eq.trans htu hst

theorem sameBut_setV (x : Reg) (b : Byte) : SameBut [.v] s (s.setV x b) := by simp [sameBut_iff]
theorem sameBut_setRegs (v : Vector Byte 16) : SameBut [.v] s (s.setRegs v) := by simp [sameBut_iff]
theorem sameBut_setI (w : Word) : SameBut [.i] s (s.setI w) := by simp [sameBut_iff]
theorem sameBut_setPc (w : Word) : SameBut [.pc] s (s.setPc w) := by simp [sameBut_iff]
theorem sameBut_setDt (b : Byte) : SameBut [.dt] s (s.setDt b) := by simp [sameBut_iff]
theorem sameBut_setSt (b : Byte) : SameBut [.st] s (s.setSt b) := by simp [sameBut_iff]
theorem sameBut_setFb (fb : Frame) : SameBut [.fb] s (s.setFb fb) := by simp [sameBut_iff]
theorem sameBut_setDraw (b : Bool) : SameBut [.draw] s (s.setDraw b) := by simp [sameBut_iff]
theorem sameBut_setMem (m : Memory) : SameBut [.mem] s (s.setMem m) := by simp [sameBut_iff]
theorem sameBut_latch (f : Fault) : SameBut [.err] s (s.latch f) := by simp [sameBut_iff]
theorem sameBut_countDraw : SameBut [.draws] s s.countDraw := by simp [sameBut_iff]

theorem sameBut_skipIf (b : Bool) : SameBut [.pc] s (s.skipIf b) := by
  rw [State.skipIf_eq_setPc]
  exact sameBut_setPc _

theorem sameBut_setResultFlag (b : Bool) (x : Reg) (result flag : Byte) :
    SameBut [.v] s (s.setResultFlag b x result flag) := by
  obtain ⟨v, hv⟩ := s.setResultFlag_eq_setRegs b x result flag
  exact hv ▸ sameBut_setRegs v

/-- A guarded access changes what its continuation does, or ERR alone. -/
theorem sameBut_of_guardRange {len : Nat} {k : State → Result} (h : guardRange len s k = .next t) (herr : .err ∈ c)
    (hk : k s = .next t → SameBut c s t) : SameBut c s t := by
  obtain ⟨-, ht⟩ | ⟨-, -, rfl⟩ := guardRange_cases h
  · exact hk ht
  · exact (sameBut_latch _).mono (by simpa using herr)

theorem sameBut_of_execRet (h : execRet s = .next t) : SameBut [.sp, .pc, .err] s t := by
  obtain ⟨-, rfl⟩ | ⟨-, rfl⟩ := execRet_cases h
  · simp [sameBut_iff]
  · exact (sameBut_latch _).mono (by simp)

theorem sameBut_of_execCall {nnn : BitVec 12} (h : execCall nnn s = .next t) : SameBut [.stack, .sp, .pc, .err] s t := by
  obtain ⟨-, rfl⟩ | ⟨-, rfl⟩ := execCall_cases h
  · simp [sameBut_iff]
  · exact (sameBut_latch _).mono (by simp)

theorem sameBut_of_skipOnKey {x : Reg} {wanted : Bool} (h : skipOnKey x wanted s = .next t) :
    SameBut [.pc, .err] s t := by
  obtain ⟨-, rfl⟩ | ⟨-, rfl⟩ := skipOnKey_cases h
  · exact (sameBut_skipIf _).mono (by simp)
  · exact (sameBut_latch _).mono (by simp)

theorem sameBut_of_execLdVxK {x : Reg} (h : execLdVxK x s = .next t) : SameBut [.v, .pc] s t := by
  obtain ⟨-, rfl⟩ | ⟨k, -, rfl⟩ := execLdVxK_cases h
  · exact (sameBut_setPc _).mono (by simp)
  · exact (sameBut_setV _ _).mono (by simp)

theorem sameBut_of_execDrw {x y : Reg} {n : BitVec 4} (h : execDrw x y n s = .next t) :
    SameBut [.v, .fb, .draw, .err] s t := by
  refine sameBut_of_guardRange h (by simp) fun ht => ?_
  cases ht
  exact (((sameBut_setFb _).trans (sameBut_setDraw _)).trans (sameBut_setV _ _)).mono (by simp)

theorem sameBut_of_execLdB {x : Reg} (h : execLdB x s = .next t) : SameBut [.mem, .err] s t := by
  refine sameBut_of_guardRange h (by simp) fun ht => ?_
  cases ht
  exact (sameBut_setMem _).mono (by simp)

theorem sameBut_of_execStoreRegs {x : Reg} (h : execStoreRegs x s = .next t) : SameBut [.mem, .err] s t := by
  refine sameBut_of_guardRange h (by simp) fun ht => ?_
  cases ht
  exact (sameBut_setMem _).mono (by simp)

theorem sameBut_of_execLoadRegs {x : Reg} (h : execLoadRegs x s = .next t) : SameBut [.v, .err] s t := by
  refine sameBut_of_guardRange h (by simp) fun ht => ?_
  cases ht
  exact (sameBut_setRegs _).mono (by simp)

/-- An instruction changes only the elements it may write (R10). -/
theorem sameBut_writes_of_exec {i : Instr} (h : exec i s = .next t) : SameBut (Instr.writes i) s t := by
  cases i with
  | cls => cases h; exact (sameBut_setFb _).trans (sameBut_setDraw _)
  | ret => exact sameBut_of_execRet h
  | call => exact sameBut_of_execCall h
  | jp | jpV0 => cases h; exact sameBut_setPc _
  | seImm | sneImm | seReg | sneReg => cases h; exact sameBut_skipIf _
  | ldImm | addImm | ldReg | orReg | andReg | xorReg | ldVxDt => cases h; exact sameBut_setV _ _
  | addReg | subReg | shr | subnReg | shl => cases h; exact sameBut_setResultFlag _ _ _ _
  | ldI | addI | ldF => cases h; exact sameBut_setI _
  | rnd => cases h; exact (sameBut_setV _ _).trans sameBut_countDraw
  | drw => exact sameBut_of_execDrw h
  | skp | sknp => exact sameBut_of_skipOnKey h
  | ldVxK => exact sameBut_of_execLdVxK h
  | ldDtVx => cases h; exact sameBut_setDt _
  | ldStVx => cases h; exact sameBut_setSt _
  | ldB => exact sameBut_of_execLdB h
  | storeRegs => exact sameBut_of_execStoreRegs h
  | loadRegs => exact sameBut_of_execLoadRegs h

/-- Settles O35, by the frame of each instruction. -/
theorem elementsWrittenOnlyAsTheTableSays : Obligations.ElementsWrittenOnlyAsTheTableSays :=
  fun _ _ _ h => sameBut_writes_of_exec h

/-! ## The registers and the flag -/

/-- The flag written together with a result remains in VF (R112). -/
theorem State.getV_VF_setResultFlag (x : Reg) (result flag : Byte) :
    (s.setResultFlag Config.chosen.vfLast x result flag).getV VF = flag := by
  simp [State.getV_setResultFlag]

theorem State.getV_setResultFlag_ne {x r : Reg} (hx : r ≠ x) (hVF : r ≠ VF) (result flag : Byte) :
    (s.setResultFlag Config.chosen.vfLast x result flag).getV r = s.getV r := by
  simp [State.getV_setResultFlag, hx, hVF]

/-- `Dxyn` answers: the collision is in VF and the other registers are as before, or the check failed and only ERR changed (R143). -/
theorem getV_of_execDrw {x y : Reg} {n : BitVec 4} (h : execDrw x y n s = .next t) :
    (∃ collided, ∀ r, t.getV r = if r = VF then flagByte collided else s.getV r) ∨ (∃ f, t = s.latch f) := by
  obtain ⟨-, ht⟩ | ⟨-, -, rfl⟩ := guardRange_cases h
  · cases ht
    exact .inl ⟨_, fun r => State.getV_setV _ _ r _⟩
  · exact .inr ⟨_, rfl⟩

/-- `Fx65` answers: V0 to Vx hold their bytes and the other registers are as before, or the check failed and only ERR changed (R125). -/
theorem getV_of_execLoadRegs {x : Reg} (h : execLoadRegs x s = .next t) :
    (∀ r, t.getV r = if r ≤ x then s.mem.read (s.effAddr r.val) else s.getV r) ∨ (∃ f, t = s.latch f) := by
  obtain ⟨-, ht⟩ | ⟨-, -, rfl⟩ := guardRange_cases h
  · cases ht
    exact .inl (s.getV_loadedRegs x)
  · exact .inr ⟨_, rfl⟩

/-- A flag-defining instruction that did not fault leaves 0 or 1 in VF (R12). -/
theorem getV_VF_of_definesFlag {i : Instr} (hdef : Instr.definesFlag i = true) (h : exec i s = .next t) (herr : t.err = none) :
    t.getV VF = 0 ∨ t.getV VF = 1 := by
  cases i with
  | addReg | subReg | shr | subnReg | shl =>
    cases h
    rw [State.getV_VF_setResultFlag]
    exact flagByte_zero_or_one _
  | drw =>
    obtain ⟨collided, hv⟩ | ⟨f, rfl⟩ := getV_of_execDrw h
    · rw [hv, if_pos rfl]
      exact flagByte_zero_or_one _
    · cases herr
  | _ => cases hdef

/-- An instruction leaves alone each register that is neither its destination nor the VF of a flag it defines (R28). -/
theorem getV_of_not_isDest {i : Instr} {r : Reg} (h : exec i s = .next t) (hr : Instr.isDest r i = false)
    (hflag : Instr.definesFlag i = false ∨ r ≠ VF) : t.getV r = s.getV r := by
  cases i with
  | ldImm | addImm | ldReg | orReg | andReg | xorReg | ldVxDt | rnd =>
    cases h
    exact State.getV_setV_ne s (of_decide_eq_false hr) _
  | addReg | subReg | shr | subnReg | shl =>
    cases h
    exact State.getV_setResultFlag_ne (of_decide_eq_false hr) (hflag.resolve_left Bool.noConfusion) _ _
  | drw =>
    obtain ⟨collided, hv⟩ | ⟨f, rfl⟩ := getV_of_execDrw h
    · rw [hv, if_neg (hflag.resolve_left Bool.noConfusion)]
    · rfl
  | ldVxK =>
    obtain ⟨-, rfl⟩ | ⟨k, -, rfl⟩ := execLdVxK_cases h
    · rfl
    · exact State.getV_setV_ne s (of_decide_eq_false hr) _
  | loadRegs =>
    obtain hv | ⟨f, rfl⟩ := getV_of_execLoadRegs h
    · rw [hv, if_neg (of_decide_eq_false hr)]
    · rfl
  | _ => exact State.getV_congr (sameBut_writes_of_exec h .v (by simp [Instr.writes])) r

/-- Settles O21: the flag by the flag-defining instructions, the registers by the destination of each. -/
theorem registersWrittenOnlyAsTheTableSays : Obligations.RegistersWrittenOnlyAsTheTableSays :=
  fun _ _ _ h => ⟨fun hdef _ herr => getV_VF_of_definesFlag hdef h herr, fun _ hr hflag => getV_of_not_isDest h hr hflag⟩

end Sys2Proof.Machine

/-! # ST and DRAW are read by no STEP (O39) -/

namespace Sys2Proof.Machine

variable {s : State} {f : State → State}

/-! ## What a STEP answers, case by case (R60) -/

theorem step_of_latched {r : Fault} (herr : s.err = some r) : step s = .fault r := by
  simp [step, State.front, herr]

theorem step_of_fetch_fault (herr : s.err = none) (hpc : 4095 ≤ s.pc.toNat) :
    step s = .next (s.latch (.outOfBounds .mem (max s.pc.toNat 4096))) := by
  simp [step, State.front, herr, rangeFault_of_gt (len := 2) (by omega) (show 4096 < s.pc.toNat + 2 by omega)]

theorem step_of_unknownOpcode (herr : s.err = none) (hpc : s.pc.toNat ≤ 4094)
    (hdec : ∀ i, decodeWord s.fetchWord ≠ .instr i) : step s = .next (s.advance.latch (.unknownOpcode s.fetchWord)) := by
  simp [step, State.front, herr, rangeFault_eq_none.2 (.inr (show s.pc.toNat + 2 ≤ 4096 by omega))]

theorem step_of_instr {i : Instr} (herr : s.err = none) (hpc : s.pc.toNat ≤ 4094)
    (hdec : decodeWord s.fetchWord = .instr i) : step s = exec i s.advance := by
  simp [step, State.front, herr, rangeFault_eq_none.2 (.inr (show s.pc.toNat + 2 ≤ 4096 by omega)), hdec]

/-! ## Outcomes that are the same up to what is shown -/

theorem sameUpTo_next {a b : State} (h : f a = f b) : SameUpTo f (.next a) (.next b) := h

/-- Two outcomes that are each the same as a third are the same. -/
theorem SameUpTo.trans_right : ∀ {a b c : Result}, SameUpTo f a c → SameUpTo f b c → SameUpTo f a b
  | .next _, .next _, .next _, h, h' => Eq.trans h (Eq.symm h')
  | .fault _, .fault _, .fault _, h, h' => Eq.trans h (Eq.symm h')
  | .refused _, .refused _, .refused _, h, h' => Eq.trans h (Eq.symm h')

/-! ## Hiding ST and DRAW before or after -/

theorem State.getV_hideOutputs (x : Reg) : s.hideOutputs.getV x = s.getV x := rfl

theorem State.keyLookup_hideOutputs (policy : KeyIndexPolicy) (k : Byte) :
    s.hideOutputs.keyLookup policy k = s.keyLookup policy k := rfl

theorem State.leastKey_hideOutputs : s.hideOutputs.leastKey = s.leastKey := rfl

/-- A guarded access checks I, which is not hidden. -/
theorem sameUpTo_guardRange {len : Nat} {k : State → Result}
    (hk : SameUpTo State.hideOutputs (k s) (k s.hideOutputs)) :
    SameUpTo State.hideOutputs (guardRange len s k) (guardRange len s.hideOutputs k) := by
  by_cases hpass : len = 0 ∨ s.i.toNat + len ≤ 4096
  · rw [guardRange_pass hpass, guardRange_pass (s := s.hideOutputs) hpass]
    exact hk
  · rw [guardRange_fail (by omega) (by omega),
      guardRange_fail (s := s.hideOutputs) (by omega) (show 4096 < s.i.toNat + len by omega)]
    exact sameUpTo_next rfl

theorem sameUpTo_execDrw (x y : Reg) (n : BitVec 4) :
    SameUpTo State.hideOutputs (execDrw x y n s) (execDrw x y n s.hideOutputs) :=
  sameUpTo_guardRange (sameUpTo_next rfl)

theorem sameUpTo_execLdB (x : Reg) : SameUpTo State.hideOutputs (execLdB x s) (execLdB x s.hideOutputs) :=
  sameUpTo_guardRange (sameUpTo_next rfl)

theorem sameUpTo_execStoreRegs (x : Reg) :
    SameUpTo State.hideOutputs (execStoreRegs x s) (execStoreRegs x s.hideOutputs) :=
  sameUpTo_guardRange (sameUpTo_next rfl)

theorem sameUpTo_execLoadRegs (x : Reg) :
    SameUpTo State.hideOutputs (execLoadRegs x s) (execLoadRegs x s.hideOutputs) :=
  sameUpTo_guardRange (sameUpTo_next rfl)

theorem hideOutputs_skipIf (c : Bool) : (s.skipIf c).hideOutputs = (s.hideOutputs.skipIf c).hideOutputs := by
  cases c <;> rfl

theorem sameUpTo_skipOnKey (x : Reg) (wanted : Bool) :
    SameUpTo State.hideOutputs (skipOnKey x wanted s) (skipOnKey x wanted s.hideOutputs) := by
  unfold skipOnKey
  rw [State.getV_hideOutputs, State.keyLookup_hideOutputs]
  cases s.keyLookup Config.chosen.keyIndexPolicy (s.getV x) with
  | level down => exact sameUpTo_next (hideOutputs_skipIf _)
  | fault r => exact sameUpTo_next rfl

theorem sameUpTo_execRet : SameUpTo State.hideOutputs (execRet s) (execRet s.hideOutputs) := by
  by_cases h0 : 0 < s.sp.val
  · rw [execRet, execRet, popThen_pass h0, popThen_pass (s := s.hideOutputs) h0]
    exact sameUpTo_next rfl
  · rw [execRet, execRet, popThen_empty (by omega), popThen_empty (s := s.hideOutputs) (show s.sp.val = 0 by omega)]
    exact sameUpTo_next rfl

theorem sameUpTo_execCall (nnn : BitVec 12) :
    SameUpTo State.hideOutputs (execCall nnn s) (execCall nnn s.hideOutputs) := by
  by_cases h16 : s.sp.val < 16
  · rw [execCall, execCall, pushThen_pass h16, pushThen_pass (s := s.hideOutputs) h16]
    exact sameUpTo_next rfl
  · rw [execCall, execCall, pushThen_full (by omega), pushThen_full (s := s.hideOutputs) (show s.sp.val = 16 by omega)]
    exact sameUpTo_next rfl

theorem sameUpTo_execLdVxK (x : Reg) : SameUpTo State.hideOutputs (execLdVxK x s) (execLdVxK x s.hideOutputs) := by
  unfold execLdVxK
  rw [State.leastKey_hideOutputs]
  cases s.leastKey with
  | none => exact sameUpTo_next rfl
  | some k => exact sameUpTo_next rfl

/-- No instruction's outcome depends on ST or DRAW. -/
theorem sameUpTo_exec_hideOutputs (i : Instr) (s : State) :
    SameUpTo State.hideOutputs (exec i s) (exec i s.hideOutputs) := by
  cases i with
  | ret => exact sameUpTo_execRet
  | call nnn => exact sameUpTo_execCall nnn
  | seImm | sneImm | seReg | sneReg => exact sameUpTo_next (hideOutputs_skipIf _)
  | skp x => exact sameUpTo_skipOnKey x true
  | sknp x => exact sameUpTo_skipOnKey x false
  | ldVxK x => exact sameUpTo_execLdVxK x
  | drw x y n => exact sameUpTo_execDrw x y n
  | ldB x => exact sameUpTo_execLdB x
  | storeRegs x => exact sameUpTo_execStoreRegs x
  | loadRegs x => exact sameUpTo_execLoadRegs x
  | _ => exact sameUpTo_next rfl

/-- No STEP's outcome depends on ST or DRAW: the front reads ERR, PC and memory, none of them hidden. -/
theorem sameUpTo_step_hideOutputs (s : State) : SameUpTo State.hideOutputs (step s) (step s.hideOutputs) := by
  obtain ⟨r, herr, -⟩ | ⟨herr, hpc, -⟩ | ⟨herr, hpc, hdec, -⟩ | ⟨i, herr, hpc, hdec, -⟩ := s.front_cases
  · rw [step_of_latched herr, step_of_latched (s := s.hideOutputs) herr]
    rfl
  · rw [step_of_fetch_fault herr hpc, step_of_fetch_fault (s := s.hideOutputs) herr hpc]
    exact sameUpTo_next rfl
  · rw [step_of_unknownOpcode herr hpc hdec, step_of_unknownOpcode (s := s.hideOutputs) herr hpc hdec]
    exact sameUpTo_next rfl
  · rw [step_of_instr herr hpc hdec, step_of_instr (s := s.hideOutputs) herr hpc hdec]
    exact sameUpTo_exec_hideOutputs i s.advance

/-- Settles O39: each STEP is the same, up to ST and DRAW, as the STEP on the state with both hidden, which the two states share. -/
theorem noInstructionReadsStOrDraw : Obligations.NoInstructionReadsStOrDraw := by
  intro s s' h
  have hs := sameUpTo_step_hideOutputs s
  rw [h] at hs
  exact hs.trans_right (sameUpTo_step_hideOutputs s')

end Sys2Proof.Machine

/-! # The fetch from memory: the bytes `Fx55` stored (O27) and a PC out of range (O9) -/

namespace Sys2Proof.Machine

variable {s t : State}

/-- `Fx55` whose bytes all lie in memory answers the state with them written, and no other (R124). -/
theorem execStoreRegs_pass {x : Reg} (hx : s.effAddr x.val ≤ 4095) :
    execStoreRegs x s = .next (s.setMem (s.mem.writeBytes (s.effAddr 0) (s.regRange x))) := by
  rw [State.effAddr_eq] at hx
  exact guardRange_pass (.inr (by omega))

/-- In the memory `Fx55` leaves, the address I + r reads Vr, for each register up to Vx (R124). -/
theorem Memory.read_writeBytes_regRange {x r : Reg} (hwf : s.mem.wf = true) (hx : s.effAddr x.val ≤ 4095) (hr : r ≤ x) :
    (s.mem.writeBytes (s.effAddr 0) (s.regRange x)).read (s.effAddr r.val) = s.getV r := by
  have hlen : r.val < (s.regRange x).length := by
    rw [State.length_regRange]
    exact Nat.lt_succ_of_le hr
  have hfit : s.effAddr 0 + (s.regRange x).length ≤ memSize := by
    rw [State.length_regRange]
    exact Nat.succ_le_succ hx
  exact (Memory.read_writeBytes_inside hwf hfit hlen).trans (s.getElem_regRange x r hlen)

/-- Settles O27: the two bytes at PC = I are the stored V0 and V1, the one at the lower address high (R45). -/
theorem storedBytesAreFetched : Obligations.StoredBytesAreFetched := by
  intro x s t hwf h1 hx h
  cases (execStoreRegs_pass hx).symm.trans h
  exact congrArg₂ wordOfBytes (Memory.read_writeBytes_regRange (r := 0) hwf hx (Fin.zero_le x))
    (Memory.read_writeBytes_regRange (r := 1) hwf hx h1)

/-- Settles O9: the bounds check of the fetch fails, so ERR alone is written, PC not yet advanced (R44). -/
theorem stepLatchesFetchFault : Obligations.StepLatchesFetchFault :=
  fun _ herr hpc => ⟨_, step_of_fetch_fault herr hpc, rfl, sameBut_latch _⟩

end Sys2Proof.Machine

/-! # Decoding and encoding (O2, O3, O4, O5, O6) and the STEP that runs what it decoded (O7) -/

namespace Sys2Proof

variable {w : Word} {op : Nat}

/-! ## The fields of a format's word are the operands it was built from (R62, R64) -/

@[simp] theorem fieldOp_formatNnn (h : op < 16) (nnn : BitVec 12) : fieldOp (formatNnn op nnn) = op := by
  rw [fieldOp_eq, formatNnn_toNat h]; omega

@[simp] theorem fieldNnn_formatNnn (h : op < 16) (nnn : BitVec 12) : fieldNnn (formatNnn op nnn) = nnn := by
  apply BitVec.eq_of_toNat_eq
  rw [fieldNnn_toNat, formatNnn_toNat h]; omega

@[simp] theorem fieldOp_formatXkk (h : op < 16) (x : Reg) (kk : Byte) : fieldOp (formatXkk op x kk) = op := by
  rw [fieldOp_eq, formatXkk_toNat h]; omega

@[simp] theorem fieldX_formatXkk (h : op < 16) (x : Reg) (kk : Byte) : fieldX (formatXkk op x kk) = x := by
  apply Fin.ext
  rw [fieldX_val, formatXkk_toNat h]; omega

@[simp] theorem fieldKk_formatXkk (h : op < 16) (x : Reg) (kk : Byte) : fieldKk (formatXkk op x kk) = kk := by
  apply BitVec.eq_of_toNat_eq
  rw [fieldKk_toNat, formatXkk_toNat h]; omega

@[simp] theorem fieldOp_formatXyn (h : op < 16) (x y : Reg) (n : BitVec 4) : fieldOp (formatXyn op x y n) = op := by
  rw [fieldOp_eq, formatXyn_toNat h]; omega

@[simp] theorem fieldX_formatXyn (h : op < 16) (x y : Reg) (n : BitVec 4) : fieldX (formatXyn op x y n) = x := by
  apply Fin.ext
  rw [fieldX_val, formatXyn_toNat h]; omega

@[simp] theorem fieldY_formatXyn (h : op < 16) (x y : Reg) (n : BitVec 4) : fieldY (formatXyn op x y n) = y := by
  apply Fin.ext
  rw [fieldY_val, formatXyn_toNat h]; omega

@[simp] theorem fieldN_formatXyn (h : op < 16) (x y : Reg) (n : BitVec 4) : fieldN (formatXyn op x y n) = n := by
  apply BitVec.eq_of_toNat_eq
  rw [fieldN_toNat, formatXyn_toNat h]; omega

/-- Format XY is format XYN with a fixed row count. -/
theorem formatXy_eq_formatXyn {f : Nat} (hf : f < 16) (x y : Reg) : formatXy op x y f = formatXyn op x y (BitVec.ofNat 4 f) := by
  simp [formatXy, formatXyn, Nat.mod_eq_of_lt hf]

/-- Format X is format XKK with a fixed immediate. -/
theorem formatX_eq_formatXkk {ff : Nat} (hf : ff < 256) (x : Reg) : formatX op x ff = formatXkk op x (BitVec.ofNat 8 ff) := by
  simp [formatX, formatXkk, Nat.mod_eq_of_lt hf]

/-- Decoding undoes encoding: the family and the fixed digits lead to the row, the fields give the operands back. -/
theorem decodeWord_encode (i : Instr) : decodeWord (encode i) = .instr i := by
  cases i
  case cls | ret => rfl
  case jp | call | ldI | jpV0 | seImm | sneImm | ldImm | addImm | rnd | drw => simp [encode, decodeWord]
  case seReg | sneReg => simp [encode, formatXy_eq_formatXyn, decodeWord, decodeXy0]
  case ldReg | orReg | andReg | xorReg | addReg | subReg | shr | subnReg | shl =>
    simp [encode, formatXy_eq_formatXyn, decodeWord, decodeFamily8]
  case skp | sknp => simp [encode, formatX_eq_formatXkk, decodeWord, decodeFamilyE]
  case ldVxDt | ldVxK | ldDtVx | ldStVx | addI | ldF | ldB | storeRegs | loadRegs =>
    simp [encode, formatX_eq_formatXkk, decodeWord, decodeFamilyF]

/-- Settles O2: the decoder reads the two bytes of `encode i` alone, and decoding undoes encoding. -/
theorem decodeOfEncodeIsInstruction : Obligations.DecodeOfEncodeIsInstruction :=
  fun i rest _ => (decodeBytes_encodeBytes i rest).trans (decodeWord_encode i)

/-- Settles O6: each word is the word of its instruction. -/
theorem writtenOutWordsDecode : Obligations.WrittenOutWordsDecode :=
  ⟨decodeWord_encode .ret, decodeWord_encode (.jp 0x204), decodeWord_encode (.ldImm 0xA 0x77),
    decodeWord_encode (.subReg 0x1 0x2), decodeWord_encode (.drw 0x1 0x2 0x3), decodeWord_encode (.storeRegs 0x2)⟩

/-! ## A word is the word of its fields, in every format (R62, R64) -/

theorem formatNnn_fields (hop : fieldOp w = op) : formatNnn op (fieldNnn w) = w := by
  have hlt := fieldOp_lt w
  apply BitVec.eq_of_toNat_eq
  rw [formatNnn_toNat (hop ▸ hlt), fieldNnn_toNat, ← hop, fieldOp_eq]; omega

theorem formatXkk_fields (hop : fieldOp w = op) : formatXkk op (fieldX w) (fieldKk w) = w := by
  have hlt := fieldOp_lt w
  apply BitVec.eq_of_toNat_eq
  rw [formatXkk_toNat (hop ▸ hlt), fieldX_val, fieldKk_toNat, ← hop, fieldOp_eq]; omega

theorem formatXyn_fields (hop : fieldOp w = op) : formatXyn op (fieldX w) (fieldY w) (fieldN w) = w := by
  have hlt := fieldOp_lt w
  apply BitVec.eq_of_toNat_eq
  rw [formatXyn_toNat (hop ▸ hlt), fieldX_val, fieldY_val, fieldN_toNat, ← hop, fieldOp_eq]; omega

theorem formatXy_fields {f : Nat} (hop : fieldOp w = op) (hn : (fieldN w).toNat = f) :
    formatXy op (fieldX w) (fieldY w) f = w := by
  subst hn
  exact formatXyn_fields hop

theorem formatX_fields {ff : Nat} (hop : fieldOp w = op) (hkk : (fieldKk w).toNat = ff) : formatX op (fieldX w) ff = w := by
  subst hkk
  exact formatXkk_fields hop

/-! ## What the decoder can answer, family by family -/

/-- The words that R67's table lists as illegal. -/
def IllegalWord (w : Word) : Prop :=
  (fieldOp w = 0 ∧ w ≠ 0x00E0 ∧ w ≠ 0x00EE) ∨
  (fieldOp w = 5 ∧ fieldN w ≠ 0) ∨
  (fieldOp w = 8 ∧ (fieldN w).toNat ∈ [0x8, 0x9, 0xA, 0xB, 0xC, 0xD, 0xF]) ∨
  (fieldOp w = 9 ∧ fieldN w ≠ 0) ∨
  (fieldOp w = 0xE ∧ fieldKk w ≠ 0x9E ∧ fieldKk w ≠ 0xA1) ∨
  (fieldOp w = 0xF ∧ (fieldKk w).toNat ∉ [0x07, 0x0A, 0x15, 0x18, 0x1E, 0x29, 0x33, 0x55, 0x65])

/-- The right answer for the word `w`: an instruction whose word `w` is, or the rejection of `w` as a listed word. -/
def Decoded.RightFor (w : Word) (d : Decoded) : Prop :=
  (∃ i, d = .instr i ∧ encode i = w ∧ ¬ IllegalWord w) ∨ (d = .unknownOpcode w ∧ IllegalWord w)

theorem decodeFamily0_right (hop : fieldOp w = 0) : (decodeFamily0 w).RightFor w := by
  have hill : IllegalWord w ↔ w ≠ 0x00E0 ∧ w ≠ 0x00EE := by simp [IllegalWord, hop]
  unfold decodeFamily0
  split_ifs with hcls hret
  · exact .inl ⟨_, rfl, hcls.symm, fun hi => (hill.1 hi).1 hcls⟩
  · exact .inl ⟨_, rfl, hret.symm, fun hi => (hill.1 hi).2 hret⟩
  · exact .inr ⟨rfl, hill.2 ⟨hcls, hret⟩⟩

/-- Families 5 and 9, whose instructions have the function digit 0. -/
theorem decodeXy0_right {i : Reg → Reg → Instr} (hop : fieldOp w = 5 ∨ fieldOp w = 9)
    (henc : ∀ x y, encode (i x y) = formatXy (fieldOp w) x y 0) : (decodeXy0 w i).RightFor w := by
  have hill : IllegalWord w ↔ fieldN w ≠ 0 := by obtain hop | hop := hop <;> simp [IllegalWord, hop]
  unfold decodeXy0
  split_ifs with hn
  · exact .inl ⟨_, rfl, (henc _ _).trans (formatXy_fields rfl (by simp [hn])), by simp [hill, hn]⟩
  · exact .inr ⟨rfl, hill.2 hn⟩

theorem decodeFamily8_right (hop : fieldOp w = 8) : (decodeFamily8 w).RightFor w := by
  have hill : IllegalWord w ↔ (fieldN w).toNat ∈ [0x8, 0x9, 0xA, 0xB, 0xC, 0xD, 0xF] := by simp [IllegalWord, hop]
  have hlt := (fieldN w).isLt
  unfold decodeFamily8
  split
  case h_10 => exact .inr ⟨rfl, hill.2 (by simp only [imp_false] at *; simp; omega)⟩
  all_goals
    next hn => exact .inl ⟨_, rfl, formatXy_fields hop hn, by simp [hill, hn]⟩

theorem decodeFamilyE_right (hop : fieldOp w = 0xE) : (decodeFamilyE w).RightFor w := by
  have hill : IllegalWord w ↔ (fieldKk w).toNat ≠ 0x9E ∧ (fieldKk w).toNat ≠ 0xA1 := by
    simp [IllegalWord, hop, BitVec.toNat_eq]
  unfold decodeFamilyE
  split
  case h_3 => exact .inr ⟨rfl, hill.2 ⟨‹_›, ‹_›⟩⟩
  all_goals
    next hkk => exact .inl ⟨_, rfl, formatX_fields hop hkk, by simp [hill, hkk]⟩

theorem decodeFamilyF_right (hop : fieldOp w = 0xF) : (decodeFamilyF w).RightFor w := by
  have hill : IllegalWord w ↔ (fieldKk w).toNat ∉ [0x07, 0x0A, 0x15, 0x18, 0x1E, 0x29, 0x33, 0x55, 0x65] := by
    simp [IllegalWord, hop]
  unfold decodeFamilyF
  split
  case h_10 => exact .inr ⟨rfl, hill.2 (by simp only [imp_false] at *; simp [*])⟩
  all_goals
    next hkk => exact .inl ⟨_, rfl, formatX_fields hop hkk, by simp [hill, hkk]⟩

/-- Every word gets its right answer: families 0, 5, 8, 9, E and F by their own decoders, the others have one instruction each (R65). -/
theorem decodeWord_right (w : Word) : (decodeWord w).RightFor w := by
  have hlt := fieldOp_lt w
  have hlegal : fieldOp w ∉ [0, 5, 8, 9, 0xE, 0xF] → ¬ IllegalWord w := by simp +contextual [IllegalWord]
  unfold decodeWord
  split <;> rename_i hop
  case h_1 => exact decodeFamily0_right hop
  case h_6 => exact decodeXy0_right (.inl hop) fun _ _ => by rw [hop]; rfl
  case h_9 => exact decodeFamily8_right hop
  case h_10 => exact decodeXy0_right (.inr hop) fun _ _ => by rw [hop]; rfl
  case h_15 => exact decodeFamilyE_right hop
  case h_16 => exact decodeFamilyF_right hop
  case h_2 | h_3 | h_11 | h_12 => exact .inl ⟨_, rfl, formatNnn_fields hop, hlegal (by simp [hop])⟩
  case h_4 | h_5 | h_7 | h_8 | h_13 => exact .inl ⟨_, rfl, formatXkk_fields hop, hlegal (by simp [hop])⟩
  case h_14 => exact .inl ⟨_, rfl, formatXyn_fields hop, hlegal (by simp [hop])⟩
  case h_17 => simp only [imp_false] at *; omega

theorem encode_of_decodeWord {i : Instr} (h : decodeWord w = .instr i) : encode i = w := by
  obtain ⟨j, hj, henc, -⟩ | ⟨hunknown, -⟩ := decodeWord_right w
  · cases hj.symm.trans h
    exact henc
  · cases hunknown.symm.trans h

theorem decodeWord_eq_unknownOpcode_iff (w : Word) : decodeWord w = .unknownOpcode w ↔ IllegalWord w := by
  obtain ⟨i, hi, -, hlegal⟩ | ⟨hunknown, hillegal⟩ := decodeWord_right w
  · simp [hi, hlegal]
  · simp [hunknown, hillegal]

/-- Settles O3: every family answers an instruction whose word is the word decoded. -/
theorem encodeOfDecodeIsWord : Obligations.EncodeOfDecodeIsWord := fun _ _ h => encode_of_decodeWord h

/-- Settles O5: every family rejects exactly its listed words. -/
theorem illegalWordsAreTheListedOnes : Obligations.IllegalWordsAreTheListedOnes := decodeWord_eq_unknownOpcode_iff

/-! ## The rows of the opcode map (R66) -/

theorem row_mem_opcodeTable (i : Instr) : i.row ∈ opcodeTable := by
  cases i <;> simp [opcodeTable, oneOfEach, Instr.row]

/-- The word of an instruction has the fixed bits of the instruction's row, format by format (R64, R66). -/
theorem row_selects_encode (i : Instr) : i.row.selects (encode i) = true := by
  cases i
  case cls | ret => rfl
  case jp | call | ldI | jpV0 => exact decide_eq_true (Laws.EncodeRow.selects_nnn _ (by decide) _ _ rfl)
  case seImm | sneImm | ldImm | addImm | rnd => exact decide_eq_true (Laws.EncodeRow.selects_xkk _ (by decide) _ _ _ rfl)
  case drw => exact decide_eq_true (Laws.EncodeRow.selects_xyn _ (by decide) _ _ _ _ rfl)
  case seReg | sneReg | ldReg | orReg | andReg | xorReg | addReg | subReg | shr | subnReg | shl =>
    exact decide_eq_true (Laws.EncodeRow.selects_xy _ _ (by decide) (by decide) _ _ _ rfl)
  case skp | sknp | ldVxDt | ldVxK | ldDtVx | ldStVx | addI | ldF | ldB | storeRegs | loadRegs =>
    exact decide_eq_true (Laws.EncodeRow.selects_x _ _ (by decide) (by decide) _ _ rfl)

/-- A word with the fixed bits of a row decodes to an instruction of that row. -/
theorem decodeWord_of_selects {i : Instr} (h : i.row.selects w = true) : ∃ j, decodeWord w = .instr j ∧ j.row = i.row := by
  rw [OpcodeRow.selects, decide_eq_true_eq] at h
  cases i <;> simp only [Instr.row] at h
  case cls | ret =>
    obtain rfl := (BitVec.and_allOnes (x := w)).symm.trans h
    exact ⟨_, rfl, rfl⟩
  case jp | call | seImm | sneImm | ldImm | addImm | ldI | jpV0 | rnd | drw =>
    have hop := (and_F000_eq_iff w _ rfl).1 h
    simp [decodeWord, hop.trans (fieldOp_eq _), Instr.row]
  case seReg | sneReg =>
    obtain ⟨hop, hn⟩ := (and_F00F_eq_iff w _ rfl).1 h
    simp [decodeWord, hop.trans (fieldOp_eq _), decodeXy0, BitVec.eq_of_toNat_eq (y := 0) hn, Instr.row]
  case ldReg | orReg | andReg | xorReg | addReg | subReg | shr | subnReg | shl =>
    obtain ⟨hop, hn⟩ := (and_F00F_eq_iff w _ rfl).1 h
    simp [decodeWord, hop.trans (fieldOp_eq _), decodeFamily8, hn.trans (fieldN_toNat _), Instr.row]
  case skp | sknp =>
    obtain ⟨hop, hkk⟩ := (and_F0FF_eq_iff w _ rfl).1 h
    simp [decodeWord, hop.trans (fieldOp_eq _), decodeFamilyE, hkk.trans (fieldKk_toNat _), Instr.row]
  case ldVxDt | ldVxK | ldDtVx | ldStVx | addI | ldF | ldB | storeRegs | loadRegs =>
    obtain ⟨hop, hkk⟩ := (and_F0FF_eq_iff w _ rfl).1 h
    simp [decodeWord, hop.trans (fieldOp_eq _), decodeFamilyF, hkk.trans (fieldKk_toNat _), Instr.row]

theorem exists_row_of_mem_opcodeTable {r : OpcodeRow} (h : r ∈ opcodeTable) : ∃ i : Instr, i.row = r := by
  obtain ⟨i, -, hi⟩ := List.mem_map.1 h
  exact ⟨i, hi⟩

/-- Settles O4: a word that selects rows decodes to an instruction of each of them, so they are one row; a word that decodes selects the
row of its instruction, so a word that selects none is unknown. -/
theorem decodeFollowsOpcodeMap : Obligations.DecodeFollowsOpcodeMap := by
  refine ⟨rfl, fun w r hr hs => ?_, fun w r r' hr hr' hs hs' => ?_, fun w hnone => ?_⟩
  · obtain ⟨i, rfl⟩ := exists_row_of_mem_opcodeTable hr
    exact decodeWord_of_selects hs
  · obtain ⟨i, rfl⟩ := exists_row_of_mem_opcodeTable hr
    obtain ⟨i', rfl⟩ := exists_row_of_mem_opcodeTable hr'
    obtain ⟨j, hj, hrow⟩ := decodeWord_of_selects hs
    obtain ⟨j', hj', hrow'⟩ := decodeWord_of_selects hs'
    obtain rfl : j = j' := by simpa [hj] using hj'
    exact hrow.symm.trans hrow'
  · obtain ⟨i, -, henc, -⟩ | ⟨hunknown, -⟩ := decodeWord_right w
    · have hsel : i.row.selects w = true := henc ▸ row_selects_encode i
      simp [hnone _ (row_mem_opcodeTable i)] at hsel
    · exact hunknown

/-! ## The STEP (R60) -/

/-- Settles O7: the fetch reads the word of the two bytes at PC and advances PC by 2, and the decoded instruction is executed. -/
theorem stepRunsTheDecodedInstruction : Obligations.StepRunsTheDecodedInstruction :=
  fun _ _ herr hpc hdec => Machine.step_of_instr herr hpc hdec

end Sys2Proof

/-! # Control flow: the jumps (O11), the skips (O12), the call (O13) and the return (O14, O15) -/

namespace Sys2Proof.Machine

variable {s : State} {j : Fin 16} {op : BitVec 4} {nnn : BitVec 12} {x : Reg} {kk : Byte} {i : Instr}

/-! ## A word written by its fields is the word of its format (R62, R64) -/

theorem wordNnn_eq_formatNnn (op : BitVec 4) (nnn : BitVec 12) : wordNnn op nnn = formatNnn op.toNat nnn := by
  apply BitVec.eq_of_toNat_eq
  rw [formatNnn_toNat op.isLt, wordNnn, BitVec.toNat_append, ← Nat.shiftLeft_add_eq_or_of_lt nnn.isLt, Nat.shiftLeft_eq]

theorem wordXkk_eq_formatXkk (op : BitVec 4) (x : Reg) (kk : Byte) : wordXkk op x kk = formatXkk op.toNat x kk := by
  have hx : (BitVec.ofNat 4 x.val).toNat = x.val := by simp
  apply BitVec.eq_of_toNat_eq
  rw [formatXkk_toNat op.isLt, wordXkk, BitVec.toNat_append, ← Nat.shiftLeft_add_eq_or_of_lt kk.isLt, BitVec.toNat_append,
    ← Nat.shiftLeft_add_eq_or_of_lt (BitVec.isLt _), hx, Nat.shiftLeft_eq, Nat.shiftLeft_eq]
  omega

/-- The word with the fields of an instruction of format NNN decodes to that instruction. -/
theorem decodeWord_wordNnn (h : encode i = formatNnn op.toNat nnn) :
    decodeWord (wordNnn op nnn) = .instr i := by
  rw [wordNnn_eq_formatNnn, ← h, decodeWord_encode]

/-- The word with the fields of an instruction of format XKK decodes to that instruction. -/
theorem decodeWord_wordXkk (h : encode i = formatXkk op.toNat x kk) :
    decodeWord (wordXkk op x kk) = .instr i := by
  rw [wordXkk_eq_formatXkk, ← h, decodeWord_encode]

/-! ## What the call and the return answer, by the stack slot they use -/

/-- A call whose SP names the slot `j` pushes PC there and jumps (R82). -/
theorem execCall_pass (hj : j.val = s.sp.val) :
    execCall nnn s = .next { s with pc := immAddr nnn, stack := s.stack.set j s.pc, sp := j.succ } := by
  have hsp : s.sp = j.castSucc := Fin.ext hj.symm
  have hlt : s.sp.val < 16 := hj ▸ j.isLt
  simp [execCall, pushThen_pass hlt, hsp, State.setPc, Fin.succ]

theorem execCall_full (h : s.sp.val = 16) : execCall nnn s = .next (s.latch .stackOverflow) := pushThen_full h

/-- A return with the slot `j` on top of the stack pops it into PC (R80). -/
theorem execRet_pass (hj : j.val + 1 = s.sp.val) : execRet s = .next { s with pc := s.stack[j], sp := j.castSucc } := by
  have hsp : s.sp = j.succ := Fin.ext hj.symm
  have hpos : 0 < s.sp.val := by omega
  simp [execRet, popThen_pass hpos, hsp, State.setPc, Fin.castSucc, Fin.castAdd, Fin.castLE]

theorem execRet_empty (h : s.sp.val = 0) : execRet s = .next (s.latch .stackUnderflow) := popThen_empty h

/-- Settles O13: with room the push writes the slot at SP alone, with a full stack ERR alone is written. -/
theorem callPushesPcOrOverflows : Obligations.CallPushesPcOrOverflows := by
  refine fun nnn s => ⟨fun j hj => ?_, fun hfull => ⟨_, execCall_full hfull, rfl, sameBut_latch _⟩⟩
  have hother (k : Fin 16) (hk : k ≠ j) : (s.stack.set j s.pc)[k] = s.stack[k] :=
    Vector.getElem_set_ne _ _ fun h => hk (Fin.ext h.symm)
  exact ⟨_, execCall_pass hj, immAddr_toNat nnn, congrArg (· + 1) hj, Vector.getElem_set_self _, hother, by simp [sameBut_iff]⟩

/-- Settles O14: the pop reads the slot below SP and keeps it, on an empty stack ERR alone is written. -/
theorem returnPopsPcOrUnderflows : Obligations.ReturnPopsPcOrUnderflows := by
  refine fun s => ⟨fun j hj => ?_, fun hempty => ⟨_, execRet_empty hempty, rfl, sameBut_latch _⟩⟩
  exact ⟨_, execRet_pass hj, rfl, hj, by simp [sameBut_iff]⟩

/-- Settles O15: the return pops the very slot that the call wrote. -/
theorem returnComesBackAfterTheCall : Obligations.ReturnComesBackAfterTheCall := by
  intro nnn s t u hlt hcall hsp hstack
  obtain ⟨j, hj⟩ : ∃ j : Fin 16, j.val = s.sp.val := ⟨⟨s.sp.val, hlt⟩, rfl⟩
  cases (execCall_pass hj).symm.trans hcall
  have htop : u.stack[j] = s.pc := by rw [hstack]; exact Vector.getElem_set_self _
  have hret : j.val + 1 = u.sp.val := by rw [hsp]; rfl
  exact ⟨_, execRet_pass hret, htop, Fin.ext hj, by simp [sameBut_iff]⟩

/-! ## The jumps and the skips -/

/-- The target of `Bnnn` is below the 16-bit wrap (R87). -/
theorem immAddr_add_regWord_toNat (nnn : BitVec 12) (x : Reg) :
    (immAddr nnn + s.regWord x).toNat = nnn.toNat + (s.getV x).toNat := by
  have himm := immAddr_toNat nnn
  have hreg := s.regWord_toNat x
  rw [BitVec.toNat_add_of_lt (by omega), himm, hreg]

/-- Settles O11: the words are those of the two jumps, and each jump is one write of PC. -/
theorem jumpsSetPc : Obligations.JumpsSetPc := fun nnn _ =>
  ⟨decodeWord_wordNnn rfl, decodeWord_wordNnn rfl, ⟨_, rfl, immAddr_toNat nnn, sameBut_setPc _⟩,
    ⟨_, rfl, immAddr_add_regWord_toNat nnn 0, sameBut_setPc _⟩⟩

/-- Settles O12: the words are those of the two skips on an immediate, and each of the four skips is `skipIf` on its condition. -/
theorem skipsAddTwoWhenTheConditionHolds : Obligations.SkipsAddTwoWhenTheConditionHolds := by
  refine fun x y kk s => ⟨decodeWord_wordXkk rfl, decodeWord_wordXkk rfl, ⟨_, rfl, ?_, sameBut_skipIf _⟩,
    ⟨_, rfl, ?_, sameBut_skipIf _⟩, ⟨_, rfl, ?_, sameBut_skipIf _⟩, ⟨_, rfl, ?_, sameBut_skipIf _⟩⟩
  all_goals simp

end Sys2Proof.Machine

/-! # The ALU: load, copy, add immediate and logic (O17, O18), add and subtract (O19), the shifts (O20) -/

namespace Sys2Proof.Machine

variable {s : State} {op n : BitVec 4} {x y : Reg} {i : Instr}

/-! ## The word with the fields of format XYN (R62, R64) -/

theorem wordXyn_eq_formatXyn (op : BitVec 4) (x y : Reg) (n : BitVec 4) : wordXyn op x y n = formatXyn op.toNat x y n := by
  have hx : (BitVec.ofNat 4 x.val).toNat = x.val := by simp
  have hy : (BitVec.ofNat 4 y.val).toNat = y.val := by simp
  apply BitVec.eq_of_toNat_eq
  rw [formatXyn_toNat op.isLt, wordXyn, BitVec.toNat_append, ← Nat.shiftLeft_add_eq_or_of_lt n.isLt, BitVec.toNat_append,
    ← Nat.shiftLeft_add_eq_or_of_lt (BitVec.isLt _), BitVec.toNat_append, ← Nat.shiftLeft_add_eq_or_of_lt (BitVec.isLt _), hx, hy]
  simp only [Nat.shiftLeft_eq]
  omega

/-- The word with the fields of an instruction of format XYN, or of format XY with its function digit, decodes to that instruction. -/
theorem decodeWord_wordXyn (h : encode i = formatXyn op.toNat x y n) : decodeWord (wordXyn op x y n) = .instr i := by
  rw [wordXyn_eq_formatXyn, ← h, decodeWord_encode]

/-! ## Which registers the two writes of the ALU touch -/

theorem regsSameBut_setV (x : Reg) (b : Byte) : RegsSameBut [x] s (s.setV x b) :=
  fun _ hr => s.getV_setV_ne (by simpa using hr) b

theorem regsSameBut_setResultFlag (x : Reg) (result flag : Byte) :
    RegsSameBut [x, VF] s (s.setResultFlag Config.chosen.vfLast x result flag) := by
  intro r hr
  obtain ⟨hx, hVF⟩ : r ≠ x ∧ r ≠ VF := by simpa using hr
  exact State.getV_setResultFlag_ne hx hVF result flag

/-- The result remains in Vx unless Vx is VF, where the flag is written last (D5). -/
theorem State.getV_setResultFlag_self (hx : x ≠ VF) (result flag : Byte) :
    (s.setResultFlag Config.chosen.vfLast x result flag).getV x = result := by
  simp [State.getV_setResultFlag, hx]

/-! ## The results and flags as numbers -/

theorem carryFlag_eq (a b : Byte) : carryFlag a b = if a.toNat + b.toNat > 255 then 1 else 0 := by
  simp [carryFlag, flagByte]

theorem greaterFlag_eq (a b : Byte) : greaterFlag a b = if a.toNat > b.toNat then 1 else 0 := by
  simp [greaterFlag, flagByte]

theorem flagByte_toNat (c : Bool) : (flagByte c).toNat = c.toNat := by cases c <;> rfl

theorem lowBitFlag_toNat (a : Byte) : (lowBitFlag a).toNat = a.toNat % 2 := by
  rw [lowBitFlag, flagByte_toNat, BitVec.getLsbD, Nat.toNat_testBit, pow_zero, Nat.div_one]

/-- Bit 7 is the top bit: nothing is left of the quotient by 128 but it. -/
theorem highBitFlag_toNat (a : Byte) : (highBitFlag a).toNat = a.toNat / 128 := by
  rw [highBitFlag, flagByte_toNat, BitVec.getLsbD, Nat.toNat_testBit]
  omega

theorem byte_sub_toNat (a b : Byte) : (a - b).toNat = (a.toNat + 256 - b.toNat) % 256 := by
  rw [BitVec.toNat_sub]
  omega

theorem byte_shiftRight_one_toNat (a : Byte) : (a >>> 1).toNat = a.toNat / 2 := by
  rw [BitVec.toNat_ushiftRight, Nat.shiftRight_one]

theorem byte_shiftLeft_one_toNat (a : Byte) : (a <<< 1).toNat = a.toNat * 2 % 256 := by
  rw [BitVec.toNat_shiftLeft, Nat.shiftLeft_eq, pow_one]

/-! ## The instructions -/

/-- Settles O17: the words are those of the instructions, and each instruction is one write of Vx. -/
theorem immediateAndLogicWriteVx : Obligations.ImmediateAndLogicWriteVx := by
  intro x y kk s
  have hadd : ((s.setV x (s.getV x + kk)).getV x).toNat = ((s.getV x).toNat + kk.toNat) % 256 := by
    rw [State.getV_setV_self, BitVec.toNat_add]
  have hwritten (b : Byte) : (s.setV x b).getV x = b ∧ RegsSameBut [x] s (s.setV x b) ∧ SameBut [.v] s (s.setV x b) :=
    ⟨s.getV_setV_self x b, regsSameBut_setV x b, sameBut_setV x b⟩
  exact ⟨decodeWord_wordXkk rfl, decodeWord_wordXkk rfl, decodeWord_wordXyn rfl, decodeWord_wordXyn rfl, decodeWord_wordXyn rfl,
    ⟨_, rfl, hwritten _⟩, ⟨_, rfl, hadd, (hwritten _).2⟩, ⟨_, rfl, hwritten _⟩, ⟨_, rfl, hwritten _⟩, ⟨_, rfl, hwritten _⟩⟩

/-- Settles O18: the copy is one write of Vx, with the old Vy. -/
theorem copyMovesVyIntoVx : Obligations.CopyMovesVyIntoVx :=
  fun x _ s => ⟨_, rfl, s.getV_setV_self x _, regsSameBut_setV x _, sameBut_setV x _⟩

/-- What an instruction that writes a result and then its flag leaves: both as its rule names them, all else as it was (R112). -/
theorem exec_of_setResultFlag {result flag : Byte} {r : Nat} (Q : Byte → Prop)
    (h : exec i s = .next (s.setResultFlag Config.chosen.vfLast x result flag)) (hresult : result.toNat = r) (hflag : Q flag) :
    ∃ t, exec i s = .next t ∧ (x ≠ VF → (t.getV x).toNat = r) ∧ Q (t.getV VF) ∧ RegsSameBut [x, VF] s t ∧ SameBut [.v] s t := by
  refine ⟨_, h, fun hx => ?_, ?_, regsSameBut_setResultFlag x _ _, sameBut_setResultFlag _ x _ _⟩
  · rw [State.getV_setResultFlag_self hx, hresult]
  · rwa [State.getV_VF_setResultFlag]

/-- Settles O19: each of the three writes its result and then its flag, both computed from the old operands. -/
theorem addAndSubtractWriteResultThenFlag : Obligations.AddAndSubtractWriteResultThenFlag := fun _ _ _ =>
  ⟨exec_of_setResultFlag (· = _) rfl (BitVec.toNat_add _ _) (carryFlag_eq _ _),
    exec_of_setResultFlag (· = _) rfl (byte_sub_toNat _ _) (greaterFlag_eq _ _),
    exec_of_setResultFlag (· = _) rfl (byte_sub_toNat _ _) (greaterFlag_eq _ _)⟩

/-- Settles O20: each shift writes Vx shifted in place and then the bit shifted out. -/
theorem shiftsMoveTheBitOutIntoVf : Obligations.ShiftsMoveTheBitOutIntoVf := fun _ _ _ =>
  ⟨exec_of_setResultFlag (·.toNat = _) rfl (byte_shiftRight_one_toNat _) (lowBitFlag_toNat _),
    exec_of_setResultFlag (·.toNat = _) rfl (byte_shiftLeft_one_toNat _) (highBitFlag_toNat _)⟩

end Sys2Proof.Machine

/-! # Index and memory: I is set (O22), the digits and the registers are stored (O23, O24), the registers are loaded (O25, O26) -/

namespace Sys2Proof.Machine

variable {s : State} {x : Reg} {n : Nat}

/-! ## The access to the bytes I to I + n: all or nothing (R48, R126) -/

/-- An access whose last byte lies in memory goes on. -/
theorem guardRange_pass_of_effAddr {k : State → Result} (h : s.effAddr n ≤ 4095) : guardRange (n + 1) s k = k s :=
  guardRange_pass (.inr (Nat.succ_le_succ h))

/-- An access that starts in memory and ends above it raises the fault at 4096 and does nothing else (D1, D2, D3). -/
theorem guardRange_fault_of_effAddr {k : State → Result} (hi : s.i.toNat ≤ 4095) (h : 4095 < s.effAddr n) :
    guardRange (n + 1) s k = .next (s.latch (.outOfBounds .mem 4096)) := by
  have hfirst : max s.i.toNat 4096 = 4096 := max_eq_right (Nat.le_succ_of_le hi)
  rw [guardRange_fail n.succ_pos (Nat.succ_lt_succ h), hfirst]

theorem execLdB_pass (h : s.effAddr 2 ≤ 4095) :
    execLdB x s = .next (s.setMem (s.mem.writeBytes (s.effAddr 0) (decimalDigits (s.getV x)))) :=
  guardRange_pass_of_effAddr h

theorem execLdB_fault (hi : s.i.toNat ≤ 4095) (h : 4095 < s.effAddr 2) :
    execLdB x s = .next (s.latch (.outOfBounds .mem 4096)) := guardRange_fault_of_effAddr hi h

theorem execStoreRegs_fault (hi : s.i.toNat ≤ 4095) (h : 4095 < s.effAddr x.val) :
    execStoreRegs x s = .next (s.latch (.outOfBounds .mem 4096)) := guardRange_fault_of_effAddr hi h

theorem execLoadRegs_pass (h : s.effAddr x.val ≤ 4095) : execLoadRegs x s = .next (s.setRegs (s.loadedRegs x)) :=
  guardRange_pass_of_effAddr h

theorem execLoadRegs_fault (hi : s.i.toNat ≤ 4095) (h : 4095 < s.effAddr x.val) :
    execLoadRegs x s = .next (s.latch (.outOfBounds .mem 4096)) := guardRange_fault_of_effAddr hi h

/-! ## The memory a store leaves -/

theorem memSameOutside_writeBytes (a : Nat) (bs : List Byte) :
    MemSameOutside a bs.length s (s.setMem (s.mem.writeBytes a bs)) :=
  fun _ houtside => Memory.read_writeBytes_outside houtside

/-- In the memory `Fx33` leaves, the address I + j reads the decimal digit `j`, the hundreds first (R123). -/
theorem Memory.read_writeBytes_decimalDigits {j : Nat} (b : Byte) (hwf : s.mem.wf = true) (h : s.effAddr 2 ≤ 4095) (hj : j < 3) :
    ((s.mem.writeBytes (s.effAddr 0) (decimalDigits b)).read (s.effAddr j)).toNat =
      [b.toNat / 100, b.toNat / 10 % 10, b.toNat % 10][j] := by
  have hfit : s.effAddr 0 + (decimalDigits b).length ≤ memSize := Nat.succ_le_succ h
  calc ((s.mem.writeBytes (s.effAddr 0) (decimalDigits b)).read (s.effAddr j)).toNat
    _ = ((decimalDigits b)[j]'hj).toNat := congrArg BitVec.toNat (Memory.read_writeBytes_inside hwf hfit hj)
    _ = ((decimalDigits b).map BitVec.toNat)[j]'hj := (List.getElem_map _).symm
    _ = [b.toNat / 100, b.toNat / 10 % 10, b.toNat % 10][j] := by simp only [decimalDigits_eq]

/-- Settles O23: three bytes in memory are all written, with a byte above it ERR alone is written. -/
theorem decimalDigitsAreStoredAtI : Obligations.DecimalDigitsAreStoredAtI := by
  refine fun x s hwf => ⟨fun h => ?_, fun hi h => ⟨_, execLdB_fault hi h, rfl, sameBut_latch _⟩⟩
  have hdigit {j : Nat} (hj : j < 3) := Memory.read_writeBytes_decimalDigits (s.getV x) hwf h hj
  exact ⟨_, execLdB_pass h, hdigit (j := 0) (by decide), hdigit (j := 1) (by decide), hdigit (j := 2) (by decide),
    memSameOutside_writeBytes _ (decimalDigits (s.getV x)), sameBut_setMem _⟩

/-- Settles O24: the bytes of V0 to Vx are all written, with one of them above memory ERR alone is written. -/
theorem registersAreStoredAtI : Obligations.RegistersAreStoredAtI := by
  refine fun x s hwf => ⟨fun h => ?_, fun hi h => ⟨_, execStoreRegs_fault hi h, rfl, sameBut_latch _⟩⟩
  have hframe := memSameOutside_writeBytes (s := s) (s.effAddr 0) (s.regRange x)
  rw [State.length_regRange] at hframe
  exact ⟨_, execStoreRegs_pass h, fun _ hr => Memory.read_writeBytes_regRange hwf h hr, hframe, sameBut_setMem _⟩

/-! ## The registers a load leaves -/

/-- A register up to Vx holds the byte at its address (R125). -/
theorem State.getV_loadedRegs_le {r : Reg} (hr : r ≤ x) : (s.setRegs (s.loadedRegs x)).getV r = s.mem.read (s.effAddr r.val) := by
  rw [State.getV_loadedRegs, if_pos hr]

/-- A register above Vx is not loaded (R125). -/
theorem State.getV_loadedRegs_gt {r : Reg} (hr : x < r) : (s.setRegs (s.loadedRegs x)).getV r = s.getV r := by
  rw [State.getV_loadedRegs, if_neg hr.not_ge]

/-- Settles O25: V0 to Vx are all written, with one of their bytes above memory ERR alone is written. -/
theorem registersAreLoadedFromI : Obligations.RegistersAreLoadedFromI := fun _ _ =>
  ⟨fun h => ⟨_, execLoadRegs_pass h, fun _ => State.getV_loadedRegs_le, fun _ => State.getV_loadedRegs_gt, sameBut_setRegs _⟩,
    fun hi h => ⟨_, execLoadRegs_fault hi h, rfl, sameBut_latch _⟩⟩

/-- Settles O26: neither instruction writes I, so the load reads each byte where the store put it. -/
theorem loadAfterStoreRestoresRegisters : Obligations.LoadAfterStoreRestoresRegisters := by
  intro x s t v hwf hx hstore
  cases (execStoreRegs_pass hx).symm.trans hstore
  exact ⟨_, execLoadRegs_pass hx, rfl, fun _ hr =>
    (State.getV_loadedRegs_le hr).trans (Memory.read_writeBytes_regRange hwf hx hr)⟩

/-! ## The instructions that write I -/

/-- The 16-bit wrap of the sum is lost in the reduction to an address (R121). -/
theorem add_regWord_mod_toNat (w : Word) (x : Reg) :
    ((w + s.regWord x) % 4096).toNat = (w.toNat + (s.getV x).toNat) % 4096 := by
  have hdvd : 4096 ∣ 2 ^ 16 := by decide
  rw [BitVec.toNat_umod, BitVec.toNat_add, State.regWord_toNat]
  exact Nat.mod_mod_of_dvd _ hdvd

/-- Five times a byte is below the 16-bit wrap (R122). -/
theorem regWord_mul_five_toNat (x : Reg) : (s.regWord x * 5).toNat = (s.getV x).toNat * 5 := by
  have hlt := (s.getV x).isLt
  have hreg := s.regWord_toNat x
  have hfive : (5 : Word).toNat = 5 := rfl
  rw [BitVec.toNat_mul_of_lt (by rw [hreg, hfive]; omega), hreg, hfive]

/-- Settles O22: the words are those of the three instructions, and each instruction is one write of I. -/
theorem indexInstructionsSetI : Obligations.IndexInstructionsSetI := fun nnn x s =>
  ⟨decodeWord_wordNnn rfl, decodeWord_wordXkk rfl, decodeWord_wordXkk rfl, ⟨_, rfl, immAddr_toNat nnn, sameBut_setI _⟩,
    ⟨_, rfl, add_regWord_mod_toNat s.i x, sameBut_setI _⟩, ⟨_, rfl, regWord_mul_five_toNat x, sameBut_setI _⟩⟩

end Sys2Proof.Machine

/-! # The display: the clear (O28), the draw (O29) and the draw done twice (O30) -/

namespace Sys2Proof.Machine

variable {s t : State} {x y : Reg} {n : BitVec 4} {r : Fin 32} {c : Fin 64}

/-- Settles O28: the meaning is one write of FB and one of DRAW. -/
theorem clearBlanksTheFramebuffer : Obligations.ClearBlanksTheFramebuffer :=
  ⟨decodeWord_encode .cls, fun _ => ⟨_, rfl, Frame.pixel_clear, rfl, (sameBut_setFb _).trans (sameBut_setDraw _)⟩⟩

/-! ## What a draw answers -/

/-- The state a draw leaves when its bytes lie in memory. -/
def State.drawn (s : State) (x y : Reg) (n : BitVec 4) : State :=
  let p := s.drawSprite x y (s.mem.readBytes (s.effAddr 0) n.toNat)
  ((s.setFb p.fb).setDraw (s.draw || p.toggled)).setV VF (flagByte p.collided)

theorem execDrw_pass (h : n = 0 ∨ s.effAddr n.toNat ≤ 4096) : execDrw x y n s = .next (s.drawn x y n) :=
  guardRange_pass (h.imp_left (congrArg BitVec.toNat))

theorem execDrw_fault (hn : n ≠ 0) (hi : s.i.toNat ≤ 4095) (h : 4096 < s.effAddr n.toNat) :
    execDrw x y n s = .next (s.latch (.outOfBounds .mem 4096)) := by
  have hpos : 0 < n.toNat := Nat.pos_of_ne_zero fun h0 => hn (BitVec.eq_of_toNat_eq h0)
  have hfirst : max s.i.toNat 4096 = 4096 := max_eq_right (Nat.le_succ_of_le hi)
  rw [execDrw, guardRange_fail hpos h, hfirst]

theorem sameBut_drawn (x y : Reg) (n : BitVec 4) : SameBut [.v, .fb, .draw] s (s.drawn x y n) :=
  (((sameBut_setFb _).trans (sameBut_setDraw _)).trans (sameBut_setV _ _)).mono (by simp)

theorem regsSameBut_drawn (x y : Reg) (n : BitVec 4) : RegsSameBut [VF] s (s.drawn x y n) := regsSameBut_setV VF _

theorem getV_VF_drawn_zero_or_one (x y : Reg) (n : BitVec 4) :
    (s.drawn x y n).getV VF = 0 ∨ (s.drawn x y n).getV VF = 1 := by
  rw [State.drawn, State.getV_setV_self]
  exact flagByte_zero_or_one _

/-! ## The raster of the bytes at I works on the covered pixels -/

theorem eq_wrapRow_iff {k : Nat} : r = wrapRow k ↔ r.val = k % 32 := Fin.ext_iff
theorem eq_wrapCol_iff {k : Nat} : c = wrapCol k ↔ c.val = k % 64 := Fin.ext_iff

/-- The set bits of the sprite bytes read at I fall on the covered pixels (R141, R142). -/
theorem inSprite_readBytes_iff {n : Nat} :
    InSprite ((s.getV x).toNat % 64) ((s.getV y).toNat % 32) (s.mem.readBytes (s.effAddr 0) n) r c ↔
      SpriteCovers s x y n r c := by
  simp only [InSprite, InRow, SpriteCovers, spriteBit, Memory.length_readBytes, Memory.getElem_readBytes, List.mem_range,
    eq_wrapRow_iff, eq_wrapCol_iff, State.effAddr_eq, Nat.add_zero]
  constructor
  · rintro ⟨row, hrow, hr, bit, hbit, hset, hc⟩
    exact ⟨row, hrow, bit, hbit, hset, hc, hr⟩
  · rintro ⟨row, hrow, bit, hbit, hset, hc, hr⟩
    exact ⟨row, hrow, hr, bit, hbit, hset, hc⟩

/-- What the drawn state shows: the covered pixels inverted and no other, the collision in VF, the toggle in DRAW (R141 to R144). -/
theorem drawn_spec (s : State) (x y : Reg) (n : BitVec 4) :
    (∀ r c, SpriteCovers s x y n.toNat r c → (s.drawn x y n).fb.pixel r c = !s.fb.pixel r c) ∧
    (∀ r c, ¬ SpriteCovers s x y n.toNat r c → (s.drawn x y n).fb.pixel r c = s.fb.pixel r c) ∧
    ((s.drawn x y n).getV VF = 1 ↔ ∃ r c, SpriteCovers s x y n.toNat r c ∧ s.fb.pixel r c = true) ∧
    ((s.drawn x y n).draw = true ↔ s.draw = true ∨ ∃ r c, SpriteCovers s x y n.toNat r c) := by
  have hrows : (s.mem.readBytes (s.effAddr 0) n.toNat).length ≤ 32 := by
    have := n.isLt
    rw [Memory.length_readBytes]
    omega
  have hspec := Raster.drawRows_spec ((s.getV x).toNat % 64) _ hrows ((s.getV y).toNat % 32) ⟨s.fb, false, false⟩
  simp only [inSprite_readBytes_iff, Bool.false_eq_true, false_or] at hspec
  obtain ⟨hcovered, huncovered, hcollided, htoggled⟩ := hspec
  refine ⟨hcovered, huncovered, ?_, ?_⟩
  · rw [State.drawn, State.getV_setV_self, flagByte_eq_one]
    exact hcollided
  · rw [State.drawn, State.draw_setV, State.draw_setDraw, Bool.or_eq_true]
    exact or_congr_right htoggled

/-- Settles O29: a draw in range leaves the drawn state, with a byte above memory ERR alone is written. -/
theorem drawInvertsExactlyTheCoveredPixels : Obligations.DrawInvertsExactlyTheCoveredPixels := by
  refine fun x y n s => ⟨fun h => ?_, fun hn hi h => ⟨_, execDrw_fault hn hi h, rfl, sameBut_latch _⟩⟩
  obtain ⟨hcovered, huncovered, hVF, hdraw⟩ := drawn_spec s x y n
  exact ⟨_, execDrw_pass h, hcovered, huncovered, hVF, getV_VF_drawn_zero_or_one x y n, hdraw, regsSameBut_drawn x y n,
    sameBut_drawn x y n⟩

/-! ## The draw done twice -/

/-- The covered pixels depend on memory, I and the registers alone. -/
theorem spriteCovers_congr {n : Nat} (hmem : t.mem = s.mem) (hi : t.i = s.i) (hv : t.v = s.v) :
    SpriteCovers t x y n r c ↔ SpriteCovers s x y n r c := by
  simp only [SpriteCovers, State.effAddr_eq, State.getV_congr hv, hmem, hi]

/-- A draw of the same sprite on the pixels the first one left inverts them back, and collides with those the first one lit (R143). -/
theorem drawn_again (hmem : t.mem = s.mem) (hi : t.i = s.i) (hv : t.v = s.v) (hfb : t.fb = (s.drawn x y n).fb) :
    (t.drawn x y n).fb = s.fb ∧
    ((t.drawn x y n).getV VF = 1 ↔ ∃ r c, SpriteCovers s x y n.toNat r c ∧ s.fb.pixel r c = false) := by
  obtain ⟨hcovered, huncovered, -⟩ := drawn_spec s x y n
  obtain ⟨hcovered', huncovered', hVF, -⟩ := drawn_spec t x y n
  simp only [spriteCovers_congr hmem hi hv, hfb] at hcovered' huncovered' hVF
  refine ⟨Frame.ext fun r c => ?_, hVF.trans ?_⟩
  · by_cases hc : SpriteCovers s x y n.toNat r c
    · rw [hcovered' r c hc, hcovered r c hc, Bool.not_not]
    · rw [huncovered' r c hc, huncovered r c hc]
  · have hlit (r : Fin 32) (c : Fin 64) (hc : SpriteCovers s x y n.toNat r c) :
        (s.drawn x y n).fb.pixel r c = true ↔ s.fb.pixel r c = false := by
      rw [hcovered r c hc, Bool.not_eq_true']
    exact exists₂_congr fun r c => and_congr_right (hlit r c)

/-- Settles O30: the first draw keeps memory and I, so with the registers put back the second one is `drawn_again`. -/
theorem secondIdenticalDrawErases : Obligations.SecondIdenticalDrawErases := by
  intro x y n s t h hfirst
  cases (execDrw_pass h).symm.trans hfirst
  exact ⟨_, execDrw_pass h, drawn_again rfl rfl rfl rfl⟩

end Sys2Proof.Machine

/-! # Random, keys, timers: the random byte (O31), the key skips (O32), the key wait (O33), the timer copies (O34) -/

namespace Sys2Proof.Machine

variable {s : State} {x : Reg} {k : Fin 16} {wanted : Bool}

/-! ## The key skips -/

/-- With a key named by Vx, a key skip is `skipIf` on the level of that key (R151, R152). -/
theorem skipOnKey_level (hk : (s.getV x).toNat = k.val) :
    skipOnKey x wanted s = .next (s.skipIf (s.key[k] == wanted)) := by
  have hlt : (s.getV x).toNat < 16 := hk ▸ k.isLt
  simp [skipOnKey, State.keyLookup_of_lt hlt, hk]

/-- With no key named by Vx, a key skip raises the fault that carries Vx (R157, D8). -/
theorem skipOnKey_fault (h : 15 < (s.getV x).toNat) :
    skipOnKey x wanted s = .next (s.latch (.outOfBounds .key (s.getV x).toNat)) := by
  simp [skipOnKey, State.keyLookup_fault h, takeFault]

/-- Settles O32: with Vx at most 15 PC alone is written, by the level of the key, with Vx above it ERR alone. -/
theorem keySkipsTestTheLevel : Obligations.KeySkipsTestTheLevel := by
  refine fun x s => ⟨fun k hk => ⟨⟨_, skipOnKey_level hk, ?_, sameBut_skipIf _⟩, ⟨_, skipOnKey_level hk, ?_, sameBut_skipIf _⟩⟩,
    fun h => ⟨⟨_, skipOnKey_fault h, rfl, sameBut_latch _⟩, ⟨_, skipOnKey_fault h, rfl, sameBut_latch _⟩⟩⟩
  all_goals simp

/-! ## The key wait -/

theorem execLdVxK_some (h : s.leastKey = some k) : execLdVxK x s = .next (s.setV x (BitVec.ofNat 8 k.val)) := by
  simp [execLdVxK, h]

theorem execLdVxK_none (h : s.leastKey = none) : execLdVxK x s = .next s.rewind := by
  simp [execLdVxK, h]

/-- The rewind takes back the advance of the fetch (R154). -/
theorem State.rewind_advance (s : State) : s.advance.rewind = s := by
  have hpc : s.pc + 2 - 2 = s.pc := BitVec.add_sub_cancel _ _
  rw [State.rewind, State.pc_advance, hpc]
  rfl

/-- Settles O33: the least key down is what `leastKey` finds; with none the rewind undoes the advance of the STEP's fetch. -/
theorem keyWaitTakesTheLowestKeyOrRewinds : Obligations.KeyWaitTakesTheLowestKeyOrRewinds := by
  refine fun x s => ⟨decodeWord_wordXkk rfl, fun k hk hleast => ?_, fun hup => ?_, fun herr hpc hdec hup => ?_⟩
  · have hbyte : (BitVec.ofNat 8 k.val).toNat = k.val := Nat.mod_eq_of_lt (by omega)
    exact ⟨_, execLdVxK_some (State.leastKey_eq_some.2 ⟨hk, hleast⟩), by rw [State.getV_setV_self, hbyte],
      regsSameBut_setV x _, sameBut_setV x _⟩
  · exact ⟨_, execLdVxK_none (State.leastKey_eq_none.2 hup), rfl, sameBut_setPc _⟩
  · have hnone : s.advance.leastKey = none := State.leastKey_eq_none.2 hup
    calc step s = execLdVxK x s.advance := step_of_instr herr hpc hdec
      _ = .next s.advance.rewind := execLdVxK_none hnone
      _ = .next s := by rw [State.rewind_advance]

/-! ## The random byte and the timers -/

/-- Settles O31: the word is that of the instruction, which is one write of Vx and one count of a draw. -/
theorem randomByteIsMasked : Obligations.RandomByteIsMasked := fun x _ s =>
  ⟨decodeWord_wordXkk rfl, _, rfl, s.getV_setV_self x _, regsSameBut_setV x _, rfl,
    (sameBut_setV x _).trans sameBut_countDraw⟩

/-- Settles O34: each of the three is one write, of Vx, of DT or of ST. -/
theorem timerInstructionsCopy : Obligations.TimerInstructionsCopy := fun x s =>
  ⟨⟨_, rfl, s.getV_setV_self x _, regsSameBut_setV x _, sameBut_setV x _⟩, ⟨_, rfl, rfl, sameBut_setDt _⟩,
    ⟨_, rfl, rfl, sameBut_setSt _⟩⟩

end Sys2Proof.Machine

/-! # The faults: which an instruction raises (O36), the full stack (O16), precision (O37), the latch of a STEP (O8, O10) -/

namespace Sys2Proof.Machine

variable {s t : State} {i : Instr} {f : Fault}

/-! ## The fault an instruction raises, and what it answers -/

/-- The fault that the instruction raises on a state, for every I (R170). -/
def raisedFault (i : Instr) (s : State) : Option Fault :=
  match i with
  | .call _ => if s.sp.val = 16 then some .stackOverflow else none
  | .ret => if s.sp.val = 0 then some .stackUnderflow else none
  | .drw _ _ n => rangeFault s.i.toNat n.toNat
  | .ldB _ => rangeFault s.i.toNat 3
  | .storeRegs x | .loadRegs x => rangeFault s.i.toNat (x.val + 1)
  | .skp x | .sknp x => if 15 < (s.getV x).toNat then some (.outOfBounds .key (s.getV x).toNat) else none
  | _ => none

/-- An answer that raises a given fault latches it and does nothing else; one that raises none is a next state that keeps ERR. -/
def Answers (s : State) : Option Fault → Result → Prop
  | some f, r => r = .next (s.latch f)
  | none, r => ∃ t, r = .next t ∧ t.err = s.err

theorem answers_none (h : t.err = s.err) : Answers s none (.next t) := ⟨t, rfl, h⟩

/-- A guarded access raises what its bounds check does, when its continuation raises nothing. -/
theorem answers_guardRange {len : Nat} {k : State → Result} (hk : Answers s none (k s)) :
    Answers s (rangeFault s.i.toNat len) (guardRange len s k) := by
  unfold guardRange
  cases rangeFault s.i.toNat len with
  | none => exact hk
  | some f => rfl

theorem answers_execCall (nnn : BitVec 12) : Answers s (raisedFault (.call nnn) s) (execCall nnn s) := by
  by_cases hfull : s.sp.val = 16
  · rw [raisedFault, if_pos hfull]
    exact execCall_full hfull
  · rw [raisedFault, if_neg hfull]
    exact ⟨_, execCall_pass (j := ⟨s.sp.val, by omega⟩) rfl, rfl⟩

theorem answers_execRet : Answers s (raisedFault .ret s) (execRet s) := by
  by_cases hempty : s.sp.val = 0
  · rw [raisedFault, if_pos hempty]
    exact execRet_empty hempty
  · rw [raisedFault, if_neg hempty]
    exact ⟨_, execRet_pass (j := ⟨s.sp.val - 1, by omega⟩) (Nat.succ_pred hempty), rfl⟩

theorem answers_skipOnKey (x : Reg) (wanted : Bool) : Answers s (raisedFault (.skp x) s) (skipOnKey x wanted s) := by
  by_cases hkey : 15 < (s.getV x).toNat
  · rw [raisedFault, if_pos hkey]
    exact skipOnKey_fault hkey
  · rw [raisedFault, if_neg hkey]
    exact ⟨_, skipOnKey_level (k := ⟨(s.getV x).toNat, by omega⟩) rfl, s.err_skipIf _⟩

theorem answers_execDrw (x y : Reg) (n : BitVec 4) : Answers s (raisedFault (.drw x y n) s) (execDrw x y n s) :=
  answers_guardRange ⟨_, rfl, rfl⟩

theorem answers_execLdB (x : Reg) : Answers s (raisedFault (.ldB x) s) (execLdB x s) := answers_guardRange ⟨_, rfl, rfl⟩

theorem answers_execStoreRegs (x : Reg) : Answers s (raisedFault (.storeRegs x) s) (execStoreRegs x s) :=
  answers_guardRange ⟨_, rfl, rfl⟩

theorem answers_execLoadRegs (x : Reg) : Answers s (raisedFault (.loadRegs x) s) (execLoadRegs x s) :=
  answers_guardRange ⟨_, rfl, rfl⟩

theorem answers_execLdVxK (x : Reg) : Answers s none (execLdVxK x s) := by
  cases hkey : s.leastKey with
  | none => exact ⟨_, execLdVxK_none hkey, rfl⟩
  | some k => exact ⟨_, execLdVxK_some hkey, rfl⟩

/-- Every instruction answers as the fault it raises says. -/
theorem exec_answers (i : Instr) (s : State) : Answers s (raisedFault i s) (exec i s) := by
  cases i with
  | ret => exact answers_execRet
  | call nnn => exact answers_execCall nnn
  | skp x => exact answers_skipOnKey x true
  | sknp x => exact answers_skipOnKey x false
  | ldVxK x => exact answers_execLdVxK x
  | drw x y n => exact answers_execDrw x y n
  | ldB x => exact answers_execLdB x
  | storeRegs x => exact answers_execStoreRegs x
  | loadRegs x => exact answers_execLoadRegs x
  | seImm | sneImm | seReg | sneReg => exact answers_none (s.err_skipIf _)
  | _ => exact answers_none rfl

/-- With no fault latched, ERR of the next state is the fault the instruction raises. -/
theorem exec_err (i : Instr) (herr : s.err = none) : ∃ t, exec i s = .next t ∧ t.err = raisedFault i s := by
  have h := exec_answers i s
  cases hr : raisedFault i s with
  | some f => rw [hr] at h; exact ⟨_, h, rfl⟩
  | none => rw [hr] at h; rwa [← herr]

/-- An instruction that raises a fault does nothing else (R178). -/
theorem eq_latch_of_exec (herr : s.err = none) (h : exec i s = .next t) (hf : t.err = some f) : t = s.latch f := by
  have hans := exec_answers i s
  cases hr : raisedFault i s with
  | some g =>
    rw [hr] at hans
    cases h.symm.trans hans
    cases hf
    rfl
  | none =>
    rw [hr] at hans
    obtain ⟨u, hu, hkeep⟩ := hans
    cases h.symm.trans hu
    rw [hkeep, herr] at hf
    cases hf

/-! ## The listed faults -/

/-- A bounds check that starts in memory fails exactly when the access is not empty and ends above 4095, with the index 4096 (D1). -/
theorem rangeFault_eq_some {first len : Nat} (hfirst : first ≤ 4095) :
    rangeFault first len = some f ↔ 0 < len ∧ 4096 < first + len ∧ f = .outOfBounds .mem 4096 := by
  by_cases hpass : len = 0 ∨ first + len ≤ 4096
  · rw [rangeFault_eq_none.2 hpass]
    constructor
    · intro h; cases h
    · rintro ⟨hpos, hend, -⟩; omega
  · have hpos : 0 < len := by omega
    have hend : 4096 < first + len := by omega
    have hmax : max first 4096 = 4096 := by omega
    rw [rangeFault_of_gt hpos hend, hmax]
    simp [hpos, hend, eq_comm]

theorem rangeFault_succ_eq_some {n : Nat} (hi : s.i.toNat ≤ 4095) :
    rangeFault s.i.toNat (n + 1) = some f ↔ 4095 < s.effAddr n ∧ f = .outOfBounds .mem 4096 := by
  have hend : 4096 < s.i.toNat + (n + 1) ↔ 4095 < s.effAddr n := Nat.succ_lt_succ_iff
  rw [rangeFault_eq_some hi, hend, and_iff_right n.succ_pos]

/-- Settles O36: ERR of the next state is `raisedFault`, which is compared with the list instruction by instruction. -/
theorem instructionsRaiseOnlyTheListedFaults : Obligations.InstructionsRaiseOnlyTheListedFaults := by
  intro i s herr hi
  obtain ⟨t, hexec, hraised⟩ := exec_err i herr
  refine ⟨t, hexec, fun f => ?_⟩
  rw [hraised]
  cases i with
  | call | ret | skp | sknp => simp [raisedFault, eq_comm]
  | drw => simp [raisedFault, rangeFault_eq_some hi, State.effAddr_eq, and_assoc]
  | ldB | storeRegs | loadRegs => simp [raisedFault, rangeFault_succ_eq_some hi]
  | _ => simp [raisedFault]

/-! ## Nested calls -/

/-- As many calls as the stack has room for all succeed. -/
theorem callAll_of_room {targets : List (BitVec 12)} (hroom : s.sp.val + targets.length ≤ 16) :
    ∃ t, callAll targets s = .next t ∧ t.err = s.err ∧ t.sp.val = s.sp.val + targets.length := by
  induction targets generalizing s with
  | nil => exact ⟨s, rfl, rfl, rfl⟩
  | cons nnn rest ih =>
    rw [List.length_cons] at hroom ⊢
    let j : Fin 16 := ⟨s.sp.val, by omega⟩
    have hcall : exec (.call nnn) s = _ := execCall_pass (j := j) rfl
    obtain ⟨t, hrest, herr, hsp⟩ := ih (s := { s with pc := immAddr nnn, stack := s.stack.set j s.pc, sp := j.succ })
      (show s.sp.val + 1 + rest.length ≤ 16 by omega)
    refine ⟨t, ?_, herr, hsp.trans (show s.sp.val + 1 + rest.length = _ by omega)⟩
    rwa [callAll, hcall]

/-- Settles O16: a call raises StackOverflow on a full stack alone, and 16 calls fill an empty one. -/
theorem sixteenNestedCallsThenOverflow : Obligations.SixteenNestedCallsThenOverflow := by
  constructor
  · intro nnn s herr
    obtain ⟨t, hexec, hraised⟩ := exec_err (.call nnn) herr
    exact ⟨t, hexec, by simp [hraised, raisedFault]⟩
  · intro targets nnn s hlen hsp herr
    obtain ⟨t, hcalls, hkeep, hfull⟩ := callAll_of_room (s := s) (targets := targets) (by omega)
    have h16 : t.sp.val = 16 := by omega
    exact ⟨t, _, hcalls, hkeep.trans herr, h16, execCall_full h16, rfl⟩

/-! ## The STEP -/

theorem sameBut_advance_latch (f : Fault) : SameBut [.pc, .err] s (s.advance.latch f) :=
  (sameBut_setPc _).trans (sameBut_latch f)

/-- Settles O37: a fault of the fetch is latched before PC advances, one of the decode or of the instruction after it, and the
latch is all that the fault writes. -/
theorem faultsArePrecise : Obligations.FaultsArePrecise := by
  intro s t f herr hstep hf
  obtain ⟨-, ⟨hpc, rfl⟩ | ⟨hpc, -, rfl⟩ | ⟨i, hpc, -, hexec⟩⟩ := step_cases hstep
  · exact ⟨(if_pos hpc).symm, (sameBut_latch _).mono (by simp)⟩
  · exact ⟨(if_neg (by omega)).symm, sameBut_advance_latch _⟩
  · cases eq_latch_of_exec (s := s.advance) herr hexec hf
    exact ⟨(if_neg (by omega)).symm, sameBut_advance_latch _⟩

/-- Settles O8: the fetched word is `w`, and the decode's fault is latched on the advanced PC. -/
theorem stepLatchesUnknownOpcode : Obligations.StepLatchesUnknownOpcode := by
  intro s w herr hpc hw hillegal
  have hfetch : s.fetchWord = w := hw.symm
  have hdec (i : Instr) : decodeWord s.fetchWord ≠ .instr i := by rw [hfetch, hillegal]; exact Decoded.noConfusion
  exact ⟨_, step_of_unknownOpcode herr hpc hdec, congrArg (some ∘ Fault.unknownOpcode) hfetch, rfl, sameBut_advance_latch _⟩

theorem stepEvent_of_latched (h : s.err = some f) : s.stepEvent = (.stepped (some f), s) := by
  rw [State.stepEvent, step_of_latched h]

/-- Settles O10: the front of the STEP stops at the latch. -/
theorem stepOnLatchedFaultReturnsIt : Obligations.StepOnLatchedFaultReturnsIt :=
  fun _ _ h => ⟨step_of_latched h, stepEvent_of_latched h⟩

end Sys2Proof.Machine

/-! # The host's events: the latch (O38), the keys (O46), TICK (O44, O45), the reads (O47) -/

namespace Sys2Proof.Machine

variable {s : State} {k : Nat} {bytes : List Byte}

/-! ## KEY_DOWN and KEY_UP (R187) -/

theorem keyEvent_of_lt (hk : k < 16) (down : Bool) : s.keyEvent k down = s.setKey ⟨k, hk⟩ down := dif_pos hk

theorem keyEvent_of_le (hk : 16 ≤ k) (down : Bool) : s.keyEvent k down = s := dif_neg (Nat.not_lt.2 hk)

theorem sameBut_keyEvent (k : Nat) (down : Bool) : SameBut [.key] s (s.keyEvent k down) := by
  by_cases hk : k < 16
  · simp [keyEvent_of_lt hk, sameBut_iff]
  · simp [keyEvent_of_le (Nat.not_lt.1 hk), sameBut_iff]

theorem getElem_key_keyEvent (k : Nat) (down : Bool) (j : Fin 16) :
    (s.keyEvent k down).key[j] = if j.val = k then down else s.key[j] := by
  by_cases hk : k < 16
  · simp only [keyEvent_of_lt hk, State.getElem_setKey, Fin.ext_iff]
  · rw [keyEvent_of_le (Nat.not_lt.1 hk), if_neg (by omega)]

/-- Settles O46: both events are `keyEvent`, which sets one key 0 to 15 and nothing else. -/
theorem keyEventsSetOneLevel : Obligations.KeyEventsSetOneLevel := fun _ k =>
  ⟨fun j => ⟨getElem_key_keyEvent k true j, getElem_key_keyEvent k false j⟩, sameBut_keyEvent k true, sameBut_keyEvent k false,
    fun hk => ⟨keyEvent_of_le hk true, keyEvent_of_le hk false⟩⟩

/-! ## A latched fault and the events (R181, R191) -/

theorem err_load_of_le (h : bytes.length ≤ 3584) : (s.load bytes).2.err = none := by
  have hfits : romFits bytes = true := decide_eq_true h
  rw [State.load, if_pos hfits]
  rfl

theorem load_of_lt (h : 3584 < bytes.length) : s.load bytes = (.romTooLarge, s) :=
  if_neg fun hfits => Nat.not_le.2 h (of_decide_eq_true hfits)

/-- Settles O38, event by event: RESET and a LOAD that fits clear ERR; the STEP stops at the latch, a LOAD that does not fit changes
nothing, and no other event writes ERR. -/
theorem onlyResetAndLoadClearAFault : Obligations.OnlyResetAndLoadClearAFault := by
  intro s f e herr
  constructor
  · rintro (rfl | ⟨bytes, rfl, hlen⟩)
    · rfl
    · exact err_load_of_le hlen
  · rintro ⟨hreset, hload⟩
    cases e with
    | reset => exact absurd rfl hreset
    | load bytes => rwa [State.apply, load_of_lt (hload bytes rfl)]
    | step => rwa [State.apply, stepEvent_of_latched herr]
    | keyDown k => exact (sameBut_keyEvent k true .err (by simp)).trans herr
    | keyUp k => exact (sameBut_keyEvent k false .err (by simp)).trans herr
    | tick | takeDrawFlag | readFb => exact herr

/-! ## TICK (R184 to R186) -/

/-- A nonzero counter goes down by 1 and a 0 stays, as the natural subtraction does. -/
theorem countDown_toNat (b : Byte) : (if b = 0 then 0 else b - 1).toNat = b.toNat - 1 := by
  split
  · subst b; rfl
  · bv_omega

theorem dt_tick_toNat (s : State) : s.tick.2.dt.toNat = s.dt.toNat - 1 := countDown_toNat s.dt

theorem st_tick_toNat (s : State) : s.tick.2.st.toNat = s.st.toNat - 1 := countDown_toNat s.st

theorem pulse_iff (s : State) : s.tick.1 = true ↔ s.st.toNat = 1 := by
  rw [State.tick, beq_iff_eq, BitVec.toNat_eq]
  rfl

theorem soundLevel_iff (s : State) : s.soundLevel = true ↔ 0 < s.st.toNat := by
  rw [State.soundLevel, bne_iff_ne, Ne, BitVec.toNat_eq]
  exact Nat.pos_iff_ne_zero.symm

/-- Settles O44: each counter is one write. -/
theorem tickDecrementsNonzeroCounters : Obligations.TickDecrementsNonzeroCounters := fun s =>
  ⟨dt_tick_toNat s, st_tick_toNat s, pulse_iff s, (sameBut_setDt _).trans (sameBut_setSt _)⟩

theorem dt_ticks_toNat (s : State) (n : Nat) : (s.ticks n).dt.toNat = s.dt.toNat - n := by
  induction n generalizing s with
  | zero => rfl
  | succ n ih => rw [State.ticks, ih, dt_tick_toNat]; omega

theorem st_ticks_toNat (s : State) (n : Nat) : (s.ticks n).st.toNat = s.st.toNat - n := by
  induction n generalizing s with
  | zero => rfl
  | succ n ih => rw [State.ticks, ih, st_tick_toNat]; omega

/-- The first TICK gives the pulse when ST is 1, and then ST is 0 and gives none; otherwise the later TICKs give it, ST being one less. -/
theorem pulses_eq (s : State) (n : Nat) : s.pulses n = if 0 < s.st.toNat ∧ s.st.toNat ≤ n then 1 else 0 := by
  induction n generalizing s with
  | zero => rw [if_neg (by omega)]; rfl
  | succ n ih =>
    rw [State.pulses, ih, st_tick_toNat]
    simp only [pulse_iff]
    split_ifs <;> omega

/-- The pulse marks the TICK on which the sound level drops (R186). -/
theorem pulse_iff_level_drops (s : State) : s.tick.1 = true ↔ s.soundLevel = true ∧ s.tick.2.soundLevel = false := by
  rw [pulse_iff, ← Bool.not_eq_true, soundLevel_iff, soundLevel_iff, st_tick_toNat]
  omega

/-- Settles O45, by induction on the number of TICKs. -/
theorem soundStopPulseFiresOnce : Obligations.SoundStopPulseFiresOnce := fun s n =>
  ⟨dt_ticks_toNat s n, st_ticks_toNat s n, pulses_eq s n, pulse_iff_level_drops s⟩

/-! ## The draw flag and the framebuffer (R188, R189) -/

/-- Settles O47: TAKE_DRAW_FLAG is one write of DRAW, READ_FB none. -/
theorem drawFlagAndFramebufferAreRead : Obligations.DrawFlagAndFramebufferAreRead := fun _ =>
  ⟨⟨_, rfl, rfl, sameBut_setDraw false⟩, rfl⟩

end Sys2Proof.Machine

/-! # Reset, load and the first STEP: RESET (O1, O51, O52), LOAD (O48, O49, O50), the quiescent state (O40) -/

namespace Sys2Proof.Machine

variable {s : State} {hi lo : Byte} {rest bytes : List Byte} {a : Nat}

/-! ## LOAD (R201 to R205) -/

/-- The state a LOAD that fits leaves: the reset state but for memory, KEY, DRAW and the count of draws. -/
def State.launched (s : State) (bytes : List Byte) : State :=
  { State.reset with mem := Memory.image progBase bytes, key := s.key, draw := true, draws := s.draws }

theorem load_of_le (h : bytes.length ≤ 3584) : s.load bytes = (.ok, s.launched bytes) := if_pos (decide_eq_true h)

theorem wf_mem_launched (h : bytes.length ≤ 3584) : (s.launched bytes).mem.wf = true :=
  Memory.wf_image (by simp only [progBase, memSize]; omega)

/-- Outside the program, the glyph table is at 0 to 79 and 0 elsewhere. -/
theorem read_mem_launched_outside (h : a < 0x200 ∨ 0x200 + bytes.length ≤ a) :
    (s.launched bytes).mem.read a = Memory.background a :=
  Memory.read_image_outside h

theorem read_mem_launched_inside {j : Nat} (h : j < bytes.length) : (s.launched bytes).mem.read (0x200 + j) = bytes[j] :=
  Memory.read_image_inside h

theorem sameBut_launched : SameBut [.mem, .key, .draw, .draws] State.reset (s.launched bytes) := by
  simp [sameBut_iff, State.launched]

/-- Settles O48: memory is the image of the program over what unlisted addresses read as, GLYPHS below 80 and 0 from there on. -/
theorem loadGivesTheLaunchState : Obligations.LoadGivesTheLaunchState := by
  intro s bytes hlen
  refine ⟨s.launched bytes, load_of_le hlen, wf_mem_launched hlen, fun a ha => ?glyphs, fun a h80 ha => ?below,
    fun j hj => read_mem_launched_inside hj, fun a ha => ?above, rfl, rfl, sameBut_launched⟩
  case glyphs => exact read_mem_launched_outside (.inl (by omega))
  case below => exact (read_mem_launched_outside (.inl ha)).trans (Memory.background_of_le h80)
  case above => exact (read_mem_launched_outside (.inr ha)).trans (Memory.background_of_le (by omega))

/-- Settles O49: the LOAD answers RomTooLarge with the state it was given. -/
theorem tooLargeLoadChangesNothing : Obligations.TooLargeLoadChangesNothing := by
  intro s bytes h
  rw [State.apply, load_of_lt h]

/-- PC is the load address, so the fetch reads the first two bytes of the program, the first as the high byte (R45). -/
theorem fetchWord_launched : (s.launched (hi :: lo :: rest)).fetchWord = wordOfBytes hi lo :=
  congrArg₂ wordOfBytes (read_mem_launched_inside (j := 0) (by simp)) (read_mem_launched_inside (j := 1) (by simp))

/-- Settles O50: ERR is None and PC is 0x200 after the LOAD, so the STEP executes the word fetched there, PC advanced to 0x202. -/
theorem loadedProgramRunsFromItsFirstWord : Obligations.LoadedProgramRunsFromItsFirstWord := by
  intro s hi lo rest i hlen hdec
  have hfetch : decodeWord (s.launched (hi :: lo :: rest)).fetchWord = .instr i := by rwa [fetchWord_launched]
  rw [load_of_le hlen]
  exact step_of_instr rfl (show (0x200 : Word).toNat ≤ 4094 by decide) hfetch

/-! ## RESET (R200, R206) -/

theorem read_mem_reset (a : Nat) : State.reset.mem.read a = Memory.background a := Memory.read_nil a

/-- Settles O1: memory lists nothing, so it reads as the reset image; every other element is a constant. -/
theorem resetStateHoldsSpecValues : Obligations.ResetStateHoldsSpecValues := by
  refine ⟨rfl, rfl, rfl, rfl, rfl, fun r => ?registers, fun j => ?slots, fun k => ?keys, Frame.pixel_clear, rfl, rfl,
    fun a _ => read_mem_reset a, fun a h80 _ => (read_mem_reset a).trans (Memory.background_of_le h80)⟩
  case registers => exact Vector.getElem_replicate r.isLt
  case slots => exact Vector.getElem_replicate j.isLt
  case keys => exact Vector.getElem_replicate k.isLt

/-- Settles O51: the event rebuilds the reset state around the count of draws. -/
theorem resetEventGivesTheResetState : Obligations.ResetEventGivesTheResetState := fun s =>
  ⟨s.resetEvent, rfl, rfl, by simp [sameBut_iff, State.resetEvent]⟩

/-- Settles O52, by O8 at the reset state: the two bytes at 0x200 are 0, and 0x0000 is no instruction. -/
theorem stepAfterResetAloneFaults : Obligations.StepAfterResetAloneFaults := by
  have hword : (0x0000 : Word) = State.reset.mem.read 0x200 ++ State.reset.mem.read 0x201 := by
    rw [read_mem_reset, read_mem_reset, Memory.background_of_le (by decide), Memory.background_of_le (by decide)]
    rfl
  exact stepLatchesUnknownOpcode State.reset 0x0000 rfl (by decide) hword rfl

/-! ## The quiescent state (R213) -/

/-- Settles O40: the jump writes over the advanced PC the PC that the STEP began with. -/
theorem quiescentStateIsAFixedPoint : Obligations.QuiescentStateIsAFixedPoint := by
  rintro s ⟨herr, hpc, nnn, hdec, htarget⟩
  calc
    step s = exec (.jp nnn) s.advance := step_of_instr herr (Nat.le_of_add_le_add_right hpc) hdec
    _ = .next (s.advance.setPc s.pc) := by rw [← htarget]; rfl
    _ = .next s := rfl

end Sys2Proof.Machine
